-- ==== Sys2Proof/Word.lean ====
section
/-! DEFINITION. The widths of `00_scope.md` R6 and R7: 16-bit words, 8-bit bytes, 36-bit command words. -/

namespace Sys2Proof

/-- A 16-bit unsigned value: register, polynomial, seed, result (R6). -/
abbrev Word := BitVec 16

/-- An 8-bit unsigned value: a data byte, a length, the argument of FEEDBIT (R6). -/
abbrev Byte := BitVec 8

/-- A command word, `op * 2^32 + a * 2^16 + b` (`30_encoding.md` R50). -/
abbrev CommandWord := BitVec 36

end Sys2Proof
end

