-- ==== Sys2Proof/Config.lean ====
section
/-! DEFINITION. The parameters of `00_scope.md` R7, and the values the spec leaves open as opaque constants. -/

namespace Sys2Proof

/-- The number of byte addresses of the data memory, `2 ^ ADDR_WIDTH` (`20_memory.md` R29, D6). -/
abbrev Config.addrCount : Nat := 65536

/-- DEFAULT_SEED, used by the assembler when no seed is given (`40_init.md` R65). -/
abbrev Config.defaultSeed : Word := 0xFFFF#16

/-- DEFAULT_POLYNOMIAL, used by the assembler when no polynomial is given (`40_init.md` R65). -/
abbrev Config.defaultPolynomial : Word := 0x1021#16

/-- BITS_PER_BYTE_FED (`00_scope.md` R7). -/
abbrev Config.bitsPerByteFed : Nat := 8

/-- RESET_REGISTER: what `register` holds after the n-th reset event (0 is power-on). Unspecified: no proof can see
its value, and two events need not agree (`10_state.md` R24, D12). DESIGN CHOICE, log entries 1 and 2. -/
opaque Config.resetRegister : Nat → Word

/-- RESET_POLYNOMIAL: what `polynomial` holds after the n-th reset event (`10_state.md` R24, D12).
DESIGN CHOICE, log entries 1 and 2. -/
opaque Config.resetPolynomial : Nat → Word

/-- What stands at an address of the data memory that the host has stored nothing at: the content the platform gives
it, the spec's open parameter `Mem` (`20_memory.md` R30, D8). It is taken when the address is made readable.
DESIGN CHOICE, log entry 12. -/
opaque Config.platformByte : Nat → Byte

/-- What `register` holds where a run goes on past a `BoundsViolation` with n faults recorded before it
(`60_exceptions.md` R102, R110: unconstrained). Used by the extension of `Machine/Recovery.lean` only.
DESIGN CHOICE, log entry 14. -/
opaque Config.staleRegister : Nat → Word

end Sys2Proof
end

