-- ==== Sys2Proof/Machine/Flags.lean ====
section
/-! DEFINITION. The block has no flags and no condition codes (`10_state.md` R20). The two one-bit conditions its bit
step tests are written here. -/

namespace Sys2Proof.Machine

/-- The input bit of FEEDBIT: bit 7 of its argument, the other bits ignored (`30_encoding.md` R53). -/
def inputBit (t : Byte) : Bool := t.getLsbD 7

/-- The top bit of a 16-bit value, bit 15 (`00_scope.md` R10). -/
def topBit (r : Word) : Bool := r.getLsbD 15

end Sys2Proof.Machine
end

