-- ==== Sys2Proof/Machine/Crc.lean ====
section
/-! DEFINITION. The pure functions of the CRC: `StepBit` (`41_feedbit.md` R67), `StepByte` (`42_feed_bytes.md` R72),
`Fwd` and `Rev` (`45_properties.md` R82). -/

namespace Sys2Proof.Machine

/-- `shl16` of `00_scope.md` R10: left by one at 16-bit width. -/
def shl16 (v : Word) : Word := v <<< 1

/-- `shl8` of `00_scope.md` R10: left by one at 8-bit width. -/
def shl8 (d : Byte) : Byte := d <<< 1

/-- `StepBit(r, p, t)` of `41_feedbit.md` R67. Step 1 XORs bit 15 of the register with bit 7 of `t`, the reading
`90_conflicts.md` C1 settles on. -/
def stepBit (r p : Word) (t : Byte) : Word :=
  let u := r ^^^ (if inputBit t then 0x8000#16 else 0x0000#16)
  if topBit u then shl16 u ^^^ p else shl16 u

/-- `n` bit steps over a working copy `sh` shifted left after each (`42_feed_bytes.md` R72). -/
def stepBits (p : Word) : Nat → Word → Byte → Word
  | 0, r, _ => r
  | n + 1, r, sh => stepBits p n (stepBit r p sh) (shl8 sh)

/-- `StepByte(r, p, d)` of `42_feed_bytes.md` R72: the eight bits of `d`, bit 7 first. -/
def stepByte (r p : Word) (d : Byte) : Word :=
  stepBits p Config.bitsPerByteFed r d

/-- `Fwd(r, p, ds)` of `45_properties.md` R82. -/
def fwd (r p : Word) : List Byte → Word
  | [] => r
  | d :: ds => fwd (stepByte r p d) p ds

/-- `Rev(r, p, ds)` of `45_properties.md` R82: the bytes taken back to front. -/
def rev (r p : Word) (ds : List Byte) : Word := fwd r p ds.reverse

/-- A sequence of single bits, the bit of each argument being its bit 7 (FEEDBIT after FEEDBIT, `45_properties.md`
R91). -/
def feedBits (r p : Word) : List Byte → Word
  | [] => r
  | t :: ts => feedBits (stepBit r p t) p ts

end Sys2Proof.Machine
end

