-- ==== Sys2Proof/Syntax.lean ====
section
/-! DEFINITION. The five operations over their decoded operands (`30_encoding.md` R46, R47, R52). -/

namespace Sys2Proof

/-- One constructor per row of `spec/opcode_table.json`. Bits of a command word that an operation ignores (R56) are
not part of it. -/
inductive Instr where
  /-- INIT seed, poly (`40_init.md` R63). -/
  | init (seed poly : Word)
  /-- FEEDBIT topBit (`41_feedbit.md` R66); only bit 7 of `topBit` is used. -/
  | feedbit (topBit : Byte)
  /-- FEEDFWD base, length (`42_feed_bytes.md` R73); `base` is the address of `data[0]`. -/
  | feedfwd (base : Word) (length : Byte)
  /-- FEEDREV base, length (`42_feed_bytes.md` R74); `base` is still the address of `data[0]`. -/
  | feedrev (base : Word) (length : Byte)
  /-- GETRESULT (`43_getresult.md` R79). -/
  | getresult
  deriving DecidableEq, Repr

end Sys2Proof
end

