-- ==== Sys2Proof/Machine/State.lean ====
section
/-! DEFINITION. The block's state, what its ports reach, and the reasons a command can stop. -/

namespace Sys2Proof.Machine

/-- The life cycle of `10_state.md` R18. -/
inductive Mode where
  | uninitialized
  | active
  deriving DecidableEq, Repr

/-- The five operations by name, as a fault records them (`60_exceptions.md` R100). -/
inductive Operation where
  | init
  | feedbit
  | feedfwd
  | feedrev
  | getresult
  deriving DecidableEq, Repr

/-- The data memory, the two parameters of `20_memory.md` R30 apart from each other (log entry 3). -/
structure Memory where
  /-- `Mem`: the bytes that stand in memory, readable or not, as (address, byte) cells. An unlisted address has no
  known byte. -/
  cells : List Host.Cell
  /-- `Readable`: the addresses the block may read. -/
  readable : List Nat
  deriving DecidableEq, Repr

/-- What the host can do to the block and its memory (`70_reset_and_hazards.md` R115, R126, R127). -/
inductive HostAction where
  /-- One command word on the CMD port (`30_encoding.md` R48, R49). -/
  | command (w : CommandWord)
  /-- The host stores a byte in the data memory, between commands (R126); `Readable` stays as it is. -/
  | write (addr : Word) (d : Byte)
  /-- An address becomes readable, between commands (`70_reset_and_hazards.md` R119). DESIGN CHOICE, log entry 12. -/
  | expose (addr : Word)
  /-- An address becomes unreadable, between commands (`20_memory.md` R37). DESIGN CHOICE, log entry 12. -/
  | release (addr : Word)
  /-- A reset of the block (R115). DESIGN CHOICE, log entry 21: that the host asserts it, and between any two of its
  other actions. -/
  | reset
  /-- The host issues a second command before the first has completed (R121); the model gives it no meaning.
  DESIGN CHOICE, log entry 9. -/
  | overlap (first second : CommandWord)
  deriving DecidableEq, Repr

/-- The two faults of `60_exceptions.md` R100, as a run records them (R102, R108, R110). -/
inductive FaultRecord where
  /-- A byte of a fed range was not readable (R101); `addr` is the first such address in feeding order. -/
  | boundsViolation (addr : Nat)
  /-- The operation was issued in Uninitialized mode (R103). -/
  | uninitializedUse (op : Operation)
  deriving DecidableEq, Repr

/-- Why a step stops with a fault: a feed met a byte that is not readable (`60_exceptions.md` R101). Both are safe: the
hardware goes on without a sign, and the spec does not say with what. -/
inductive Fault where
  /-- Raised by FEEDFWD and FEEDREV in Active mode; `addr` is the address of the first unreadable byte in feeding
  order. Safe. -/
  | boundsViolation (addr : Nat)
  /-- Raised by FEEDFWD and FEEDREV in Uninitialized mode: the stop is at the unreadable byte `addr`, the outcome
  reported for the command is `UninitializedUse(op)` (R105). Safe. -/
  | boundsViolationBeforeInit (op : Operation) (addr : Nat)
  deriving DecidableEq, Repr

/-- The refusals of `60_exceptions.md` R100. -/
inductive Refusal where
  /-- Raised by exec's arm of an instruction without a meaning; no arm of this model does. Safe. -/
  | notModelled (mnemonic : String)
  /-- Raised by the decoder on a command word whose `op` is 0x5 to 0xF (R57, R104). Safe. -/
  | reservedOpcode (op : BitVec 4)
  /-- Raised at the command port when the host overlaps two commands (R104, R121). Safe. -/
  | concurrentIssue
  deriving DecidableEq, Repr

/-- The block's state (`10_state.md` R13), the data memory it reads, what stands on its ports, the faults the run
has recorded, and one counter of the model's own. -/
structure State where
  /-- The CRC accumulator (R14). -/
  register : Word
  /-- The low sixteen coefficients of the generator polynomial; x^16 is implicit (R16). -/
  polynomial : Word
  /-- The life-cycle state (R18). -/
  mode : Mode
  /-- The data memory, `Mem` and `Readable` (`20_memory.md` R27, R30). -/
  mem : Memory
  /-- What the RSP port has delivered, oldest first (`30_encoding.md` R62, `70_reset_and_hazards.md` R126). -/
  responses : List Word
  /-- The host's actions not yet taken, oldest first (`70_reset_and_hazards.md` R126). -/
  inputs : List HostAction
  /-- The faults the run has recorded without stopping, oldest first; never cleared (`60_exceptions.md` R102, R103,
  R110; log entries 6 and 22). -/
  faults : List FaultRecord
  /-- The model's own: how many reset events the run has taken since power-on (log entry 2). -/
  resets : Nat
  deriving DecidableEq, Repr

/-- The machine after power-on (`70_reset_and_hazards.md` R116): Uninitialized, `register` and `polynomial` the
unspecified RESET_REGISTER and RESET_POLYNOMIAL, no byte readable, nothing issued, nothing answered, no fault
recorded. -/
def State.reset : State where
  register := Config.resetRegister 0
  polynomial := Config.resetPolynomial 0
  mode := .uninitialized
  mem := ⟨[], []⟩
  responses := []
  inputs := []
  faults := []
  resets := 0

end Sys2Proof.Machine
end

