-- ==== Sys2Proof/Machine/Ops.lean ====
section
/-! DEFINITION. The named operations over the state: the data memory, the registers, the response port, reset, and
the checks and reads the instructions share. -/

namespace Sys2Proof.Machine

/-! ### The data memory -/

/-- The cells' addresses rise strictly, from `lo` on, and lie in the address space. -/
def memoryFrom (lo : Nat) : List Host.Cell → Bool
  | [] => true
  | (a, _) :: rest => lo ≤ a && a < Config.addrCount && memoryFrom (a + 1) rest

/-- The addresses rise strictly, from `lo` on, and lie in the address space. -/
def addressesFrom (lo : Nat) : List Nat → Bool
  | [] => true
  | a :: rest => lo ≤ a && a < Config.addrCount && addressesFrom (a + 1) rest

/-- The byte a cell list gives an address. -/
def memoryLookup (addr : Nat) : List Host.Cell → Option Byte
  | [] => none
  | (a, d) :: rest => if a = addr then some d else memoryLookup addr rest

/-- The canonical form: the cells and the readable addresses each strictly rising and below 65536, and a byte at every
readable address. An unlisted address has no known byte, so no cell can equal what one reads as. -/
def Memory.wf (m : Memory) : Bool :=
  memoryFrom 0 m.cells && addressesFrom 0 m.readable && m.readable.all fun a => (memoryLookup a m.cells).isSome

/-- `MemRead(addr, 1)` of `20_memory.md` R31: the byte `Mem(addr)` at an address below 65536 that is `Readable`, and
none otherwise. -/
def Memory.read (m : Memory) (addr : Nat) : Option Byte :=
  if addr < Config.addrCount ∧ addr ∈ m.readable then memoryLookup addr m.cells else none

/-- The cell list with `d` at `addr`. -/
def memoryInsert (addr : Nat) (d : Byte) : List Host.Cell → List Host.Cell
  | [] => [(addr, d)]
  | (a, e) :: rest =>
    if addr < a then (addr, d) :: (a, e) :: rest
    else if addr = a then (addr, d) :: rest
    else (a, e) :: memoryInsert addr d rest

/-- The rising list of addresses with `addr` among them. -/
def addressInsert (addr : Nat) : List Nat → List Nat
  | [] => [addr]
  | a :: rest =>
    if addr < a then addr :: a :: rest
    else if addr = a then a :: rest
    else a :: addressInsert addr rest

/-- The host's store of a byte: `Mem` changes, `Readable` does not. The block itself never writes memory
(`20_memory.md` R36). -/
def Memory.write (m : Memory) (addr : Word) (d : Byte) : Memory :=
  { m with cells := memoryInsert addr.toNat d m.cells }

/-- The cells with a byte at `addr`: the one that stands there, or the platform's (log entry 12). -/
def withByteAt (addr : Nat) (cells : List Host.Cell) : List Host.Cell :=
  match memoryLookup addr cells with
  | some _ => cells
  | none => memoryInsert addr (Config.platformByte addr) cells

/-- An address becomes readable. -/
def Memory.expose (m : Memory) (addr : Word) : Memory where
  cells := withByteAt addr.toNat m.cells
  readable := addressInsert addr.toNat m.readable

/-- An address becomes unreadable; its byte stays. -/
def Memory.release (m : Memory) (addr : Word) : Memory :=
  { m with readable := m.readable.filter fun a => a ≠ addr.toNat }

/-! ### The registers and the ports -/

/-- Write `register` (`10_state.md` R15). -/
def State.setRegister (s : State) (r : Word) : State := { s with register := r }

/-- Write all three pieces of the block's state, as INIT does (`40_init.md` R63). -/
def State.loadContext (s : State) (seed poly : Word) : State :=
  { s with register := seed, polynomial := poly, mode := .active }

/-- Write `mode`. -/
def State.setMode (s : State) (m : Mode) : State := { s with mode := m }

/-- Replace the data memory, as the host does between commands. -/
def State.setMem (s : State) (m : Memory) : State := { s with mem := m }

/-- Deliver one value on the RSP port (`30_encoding.md` R62). -/
def State.respond (s : State) (v : Word) : State := { s with responses := s.responses ++ [v] }

/-- Record a fault after those recorded before (`60_exceptions.md` R110). -/
def State.record (s : State) (f : FaultRecord) : State := { s with faults := s.faults ++ [f] }

/-- Replace the host's pending actions. -/
def State.setInputs (s : State) (as : List HostAction) : State := { s with inputs := as }

/-- The reset event (`70_reset_and_hazards.md` R116): Uninitialized, fresh unspecified values in the two registers,
the data memory not affected. DESIGN CHOICE, log entry 13: what RSP delivered, what the host has pending and the
recorded faults stay. -/
def State.resetBlock (s : State) : State :=
  { s with
    register := Config.resetRegister (s.resets + 1)
    polynomial := Config.resetPolynomial (s.resets + 1)
    mode := .uninitialized
    resets := s.resets + 1 }

/-! ### What the instructions share -/

/-- The faults an operation adds to the record: `UninitializedUse` in Uninitialized mode, none in Active mode. -/
def usesRecorded (op : Operation) (s : State) : List FaultRecord :=
  match s.mode with
  | .uninitialized => [.uninitializedUse op]
  | .active => []

/-- What `UninitializedUse(op)` makes of an operation's outcome: the operation is carried out exactly as in Active mode
on the held values and the fault is recorded (`60_exceptions.md` R103, R110; DESIGN CHOICE, log entry 6). At an
unreadable byte the run stops, with `UninitializedUse` reported first (R105). -/
def raiseUninitializedUse (op : Operation) : Host.Outcome State Fault Refusal → Host.Outcome State Fault Refusal
  | .next t => .next (t.record (.uninitializedUse op))
  | .fault (.boundsViolation a) => .fault (.boundsViolationBeforeInit op a)
  | .fault f => .fault f
  | .refused r => .refused r

/-- The check of `mode` every operation but INIT makes: the first line of the pseudocode of `41_feedbit.md` R66,
`42_feed_bytes.md` R73 and R74, `43_getresult.md` R79. `outcome` is what the operation does in Active mode. -/
def checkMode (op : Operation) (s : State) (outcome : Host.Outcome State Fault Refusal) :
    Host.Outcome State Fault Refusal :=
  match s.mode with
  | .uninitialized => raiseUninitializedUse op outcome
  | .active => outcome

/-- Feed the bytes at the listed addresses, in that order, each read before its eight steps (`20_memory.md` R39);
the address of the first that is not readable otherwise (`42_feed_bytes.md` R77). -/
def feedBytes (m : Memory) (p : Word) : List Nat → Word → Except Nat Word
  | [], r => .ok r
  | a :: rest, r =>
    match m.read a with
    | none => .error a
    | some d => feedBytes m p rest (stepByte r p d)

/-- A feed over a range, given the addresses in feeding order (`42_feed_bytes.md` R73, R74). -/
def feedRange (addrs : List Nat) (s : State) : Host.Outcome State Fault Refusal :=
  match feedBytes s.mem s.polynomial addrs s.register with
  | .ok r => .next (s.setRegister r)
  | .error a => .fault (.boundsViolation a)

end Sys2Proof.Machine
end

