-- ==== Sys2Proof/Machine/FeedBit.lean ====
section
/-! DEFINITION. FEEDBIT (`41_feedbit.md`). -/

namespace Sys2Proof.Machine

/-- FEEDBIT topBit (`41_feedbit.md` R66). -/
def execFeedbit (t : Byte) (s : State) : Host.Outcome State Fault Refusal :=
  checkMode .feedbit s (.next (s.setRegister (stepBit s.register s.polynomial t)))

end Sys2Proof.Machine
end

