-- ==== Sys2Proof/Machine/Operands.lean ====
section
/-! DEFINITION. The one addressing mode: base plus index (`42_feed_bytes.md` R71, `20_memory.md` R32). -/

namespace Sys2Proof.Machine

/-- The effective address of byte `i` of a range: a natural number, never reduced modulo 65536 (`20_memory.md` R32). -/
def effectiveAddress (base : Word) (i : Nat) : Nat := base.toNat + i

/-- The addresses FEEDFWD reads, in feeding order: indices 0 to length-1 (`42_feed_bytes.md` R73). None when `length`
is 0 (R78). -/
def ascending (base : Word) (length : Byte) : List Nat :=
  (List.range length.toNat).map (effectiveAddress base)

/-- The addresses FEEDREV reads, in feeding order: indices length-1 down to 0 (`42_feed_bytes.md` R74). -/
def descending (base : Word) (length : Byte) : List Nat :=
  (ascending base length).reverse

end Sys2Proof.Machine
end

