-- ==== Sys2Proof/Machine/FeedBytes.lean ====
section
/-! DEFINITION. FEEDFWD and FEEDREV (`42_feed_bytes.md`). -/

namespace Sys2Proof.Machine

/-- FEEDFWD base, length (`42_feed_bytes.md` R73): ascending addresses. -/
def execFeedfwd (base : Word) (length : Byte) (s : State) : Host.Outcome State Fault Refusal :=
  checkMode .feedfwd s (feedRange (ascending base length) s)

/-- FEEDREV base, length (`42_feed_bytes.md` R74): descending addresses, the bits of each byte still bit 7 first. -/
def execFeedrev (base : Word) (length : Byte) (s : State) : Host.Outcome State Fault Refusal :=
  checkMode .feedrev s (feedRange (descending base length) s)

end Sys2Proof.Machine
end

