-- ==== Sys2Proof/Machine/GetResult.lean ====
section
/-! DEFINITION. GETRESULT (`43_getresult.md`). -/

namespace Sys2Proof.Machine

/-- GETRESULT (`43_getresult.md` R79): respond `register` itself, with no transformation (R80). -/
def execGetresult (s : State) : Host.Outcome State Fault Refusal :=
  checkMode .getresult s (.next (s.respond s.register))

end Sys2Proof.Machine
end

