-- ==== Sys2Proof/Machine/Init.lean ====
section
/-! DEFINITION. INIT (`40_init.md`). -/

namespace Sys2Proof.Machine

/-- INIT seed, poly (`40_init.md` R63): in either mode, at any time (R64). -/
def execInit (seed poly : Word) (s : State) : Host.Outcome State Fault Refusal :=
  .next (s.loadContext seed poly)

end Sys2Proof.Machine
end

