-- ==== Sys2Proof/Machine/Dispatch.lean ====
section
/-! DEFINITION. One arm per operation: what one command does (`30_encoding.md` R48). -/

namespace Sys2Proof.Machine

def exec (i : Instr) (s : State) : Host.Outcome State Fault Refusal :=
  match i with
  | .init seed poly => Sys2Proof.Machine.execInit seed poly s
  | .feedbit t => Sys2Proof.Machine.execFeedbit t s
  | .feedfwd base length => Sys2Proof.Machine.execFeedfwd base length s
  | .feedrev base length => Sys2Proof.Machine.execFeedrev base length s
  | .getresult => Sys2Proof.Machine.execGetresult s

end Sys2Proof.Machine
end

