-- ==== Sys2Proof/Asm.lean ====
section
/-! DEFINITION. An assembler line of `30_encoding.md` R60 and R61 as a term: the five operations and the
pseudo-instructions, their operands the numbers as written. -/

namespace Sys2Proof

/-- One assembler line. Operands are unbounded numbers here; `AsmLine.wellFormed` bounds them. -/
inductive AsmLine where
  /-- `INIT` with both defaults (R61). -/
  | initDefault
  /-- `INIT seed` with the default polynomial (R61). -/
  | initSeed (seed : Nat)
  /-- `INIT seed, poly` (R60). -/
  | init (seed poly : Nat)
  /-- `FEEDBIT t` (R60). -/
  | feedbit (t : Nat)
  /-- `FEEDBOOL v`, v is 0 or 1 (R61). -/
  | feedbool (v : Nat)
  /-- `FEEDBYTE d` (R61). -/
  | feedbyte (d : Nat)
  /-- `FEEDFWD base, len` (R60). -/
  | feedfwd (base len : Nat)
  /-- `FEEDREV base, len` (R60). -/
  | feedrev (base len : Nat)
  /-- `GETRESULT` (R60). -/
  | getresult
  deriving DecidableEq, Repr

end Sys2Proof
end

