-- ==== Sys2Proof/WellFormed.lean ====
section
/-! DEFINITION. What a well-formed instruction, command word and assembler line is. -/

namespace Sys2Proof

/-- Every value of every operand is legal, and the operand types hold exactly the widths of R52 ("No constraints on
inputs"): each of the five operations is well-formed whatever its operands (`30_encoding.md` R52, `40_init.md` R63). -/
def Instr.wellFormed : Instr → Bool
  | .init _ _ => true
  | .feedbit _ => true
  | .feedfwd _ _ => true
  | .feedrev _ _ => true
  | .getresult => true

/-- The `op` field is one of the five assigned codes (`30_encoding.md` R51, R57). -/
def CommandWord.wellFormed (w : CommandWord) : Bool :=
  (w.extractLsb' 32 4).toNat ≤ 4

/-- The operands of an assembler line are in the ranges of `30_encoding.md` R52, R60 and R61. -/
def AsmLine.wellFormed : AsmLine → Bool
  | .initDefault => true
  | .initSeed seed => seed < 65536
  | .init seed poly => seed < 65536 && poly < 65536
  | .feedbit t => t < 256
  | .feedbool v => v < 2
  | .feedbyte d => d < 256
  | .feedfwd base len => base < 65536 && len < 256
  | .feedrev base len => base < 65536 && len < 256
  | .getresult => true

end Sys2Proof
end

