-- ==== Sys2Proof/Decode.lean ====
section
/-! DEFINITION. The decoder of `30_encoding.md` R59, total on all command words, the encoder of R60, and the
assembler's expansion of R61. -/

namespace Sys2Proof

/-- What a command word spells: one of the five operations, or a reserved `op` (`30_encoding.md` R59). -/
inductive Decoded where
  | instr (i : Instr)
  | reserved (op : BitVec 4)
  deriving DecidableEq, Repr

/-- `op` = CW[35:32] (R50). -/
def CommandWord.op (w : CommandWord) : BitVec 4 := w.extractLsb' 32 4

/-- `a` = CW[31:16] (R50). -/
def CommandWord.a (w : CommandWord) : Word := w.extractLsb' 16 16

/-- `b` = CW[15:0] (R50). -/
def CommandWord.b (w : CommandWord) : Word := w.extractLsb' 0 16

/-- `b[7:0]` = CW[7:0] (R52). -/
def CommandWord.bLow (w : CommandWord) : Byte := (CommandWord.b w).extractLsb' 0 8

/-- `Decode` of `30_encoding.md` R59. Ignored bits (R56) are dropped; it depends on the word alone (R58). -/
def decode (w : CommandWord) : Decoded :=
  if CommandWord.op w = 0x0#4 then .instr (.init (CommandWord.a w) (CommandWord.b w))
  else if CommandWord.op w = 0x1#4 then .instr (.feedbit (CommandWord.bLow w))
  else if CommandWord.op w = 0x2#4 then .instr (.feedfwd (CommandWord.a w) (CommandWord.bLow w))
  else if CommandWord.op w = 0x3#4 then .instr (.feedrev (CommandWord.a w) (CommandWord.bLow w))
  else if CommandWord.op w = 0x4#4 then .instr .getresult
  else .reserved (CommandWord.op w)

/-- The `op` code of an operation (`30_encoding.md` R51). -/
def opcode : Instr → BitVec 4
  | .init _ _ => 0x0#4
  | .feedbit _ => 0x1#4
  | .feedfwd _ _ => 0x2#4
  | .feedrev _ _ => 0x3#4
  | .getresult => 0x4#4

/-- `Encode` of `30_encoding.md` R60: the canonical command word, zero in every ignored bit. -/
def encode : Instr → CommandWord
  | .init seed poly => BitVec.ofNat 36 (0x0 * 2 ^ 32 + seed.toNat * 2 ^ 16 + poly.toNat)
  | .feedbit t => BitVec.ofNat 36 (0x1 * 2 ^ 32 + t.toNat)
  | .feedfwd base length => BitVec.ofNat 36 (0x2 * 2 ^ 32 + base.toNat * 2 ^ 16 + length.toNat)
  | .feedrev base length => BitVec.ofNat 36 (0x3 * 2 ^ 32 + base.toNat * 2 ^ 16 + length.toNat)
  | .getresult => BitVec.ofNat 36 (0x4 * 2 ^ 32)

/-- The bits of the command word that an operation uses: all but those R56 lists as ignored. -/
def usedBits : Instr → CommandWord
  | .init _ _ => 0xFFFFFFFFF#36
  | .feedbit _ => 0xF000000FF#36
  | .feedfwd _ _ => 0xFFFFF00FF#36
  | .feedrev _ _ => 0xFFFFF00FF#36
  | .getresult => 0xF00000000#36

/-- The command word whose bits are the low `nbits` bits of `w`, where they fit the port's 36 bits. A command word is
a value, not bytes in memory, so its bits are numbered as the table numbers them (`30_encoding.md` R50, D19).
DESIGN CHOICE, log entry 11: bits above the 36th make no command word. -/
def tableWord (nbits w : Nat) : Option CommandWord :=
  if w % 2 ^ nbits < 2 ^ 36 then some (BitVec.ofNat 36 (w % 2 ^ nbits)) else none

/-- The operation the decoder reads from the table's numbering of a word. -/
def decodeTableWord (nbits w : Nat) : Option Instr :=
  match tableWord nbits w with
  | none => none
  | some c =>
    match decode c with
    | .instr i => some i
    | .reserved _ => none

/-- The k-th command of `FEEDBYTE d` is `FEEDBIT ((d * 2^k) mod 256)` (`30_encoding.md` R61). -/
def feedbyteCommands (d : Byte) : List Instr :=
  (List.range Config.bitsPerByteFed).map fun k => .feedbit (BitVec.ofNat 8 (d.toNat * 2 ^ k))

/-- The commands an assembler line expands to (`30_encoding.md` R60, R61); none where an operand is out of range. -/
def assemble (line : AsmLine) : Option (List Instr) :=
  if line.wellFormed then
    match line with
    | .initDefault => some [.init Config.defaultSeed Config.defaultPolynomial]
    | .initSeed seed => some [.init (BitVec.ofNat 16 seed) Config.defaultPolynomial]
    | .init seed poly => some [.init (BitVec.ofNat 16 seed) (BitVec.ofNat 16 poly)]
    | .feedbit t => some [.feedbit (BitVec.ofNat 8 t)]
    | .feedbool v => some [.feedbit (if v = 1 then 0x80#8 else 0x00#8)]
    | .feedbyte d => some (feedbyteCommands (BitVec.ofNat 8 d))
    | .feedfwd base len => some [.feedfwd (BitVec.ofNat 16 base) (BitVec.ofNat 8 len)]
    | .feedrev base len => some [.feedrev (BitVec.ofNat 16 base) (BitVec.ofNat 8 len)]
    | .getresult => some [.getresult]
  else none

end Sys2Proof
end

