-- ==== Sys2Proof/Machine/HostPort.lean ====
section
/-! DEFINITION. The host's side of the ports: taking its next action, and what its actions other than commands do
(`70_reset_and_hazards.md` R126, R127). -/

namespace Sys2Proof.Machine

/-- What the command port presents to the block at a step. -/
inductive Fetched where
  /-- The host has issued nothing more. -/
  | idle
  /-- The next action, and the state with that action taken off the pending ones. -/
  | action (act : HostAction) (rest : State)

/-- Take the host's next pending action. -/
def fetch (s : State) : Fetched :=
  match s.inputs with
  | [] => .idle
  | act :: rest => .action act (s.setInputs rest)

/-- The host stores a byte between commands (`70_reset_and_hazards.md` R126, `20_memory.md` R42 b); it makes no address
readable (`20_memory.md` R30). -/
def hostWrite (addr : Word) (d : Byte) (s : State) : Host.Outcome State Fault Refusal :=
  .next (s.setMem (s.mem.write addr d))

/-- An address becomes readable between commands (`70_reset_and_hazards.md` R119). -/
def hostExpose (addr : Word) (s : State) : Host.Outcome State Fault Refusal :=
  .next (s.setMem (s.mem.expose addr))

/-- An address becomes unreadable between commands (`20_memory.md` R37). -/
def hostRelease (addr : Word) (s : State) : Host.Outcome State Fault Refusal :=
  .next (s.setMem (s.mem.release addr))

/-- The host resets the block (`70_reset_and_hazards.md` R115, R116). -/
def hostReset (s : State) : Host.Outcome State Fault Refusal :=
  .next s.resetBlock

/-- Overlapping commands have no meaning (`60_exceptions.md` R104). DESIGN CHOICE, log entry 9: the refusal is
`ConcurrentIssue` whatever the two words are, a reserved `op` among them included, since R105 gives it no rank. -/
def hostOverlap (_first _second : CommandWord) (_s : State) : Host.Outcome State Fault Refusal :=
  .refused .concurrentIssue

/-- A step with nothing pending: no command, no change (`10_state.md` R15, R17, R19). DEDUCED, log entry 5. -/
def idleStep (s : State) : Host.Outcome State Fault Refusal := .next s

/-- A reserved command word is refused and gives no next state (`30_encoding.md` R57). -/
def refuseReserved (op : BitVec 4) : Host.Outcome State Fault Refusal :=
  .refused (.reservedOpcode op)

/-- The pending actions with the table's word issued first, where it is a command word (log entry 11). -/
def issueFirst (nbits w : Nat) (pending : List HostAction) : List HostAction :=
  match tableWord nbits w with
  | none => pending
  | some c => .command c :: pending

end Sys2Proof.Machine
end

