-- ==== Sys2Proof/Machine/Step.lean ====
section
/-! DEFINITION. One step: the host's next action, a command being one atomic step (`30_encoding.md` R48,
`70_reset_and_hazards.md` R126). -/

namespace Sys2Proof.Machine

/-- One command word: refused when reserved, before anything else is asked of it (`60_exceptions.md` R105). -/
def runCommand (w : CommandWord) (s : State) : Host.Outcome State Fault Refusal :=
  match decode w with
  | .instr i => exec i s
  | .reserved op => refuseReserved op

/-- What one action of the host does. -/
def perform (act : HostAction) (s : State) : Host.Outcome State Fault Refusal :=
  match act with
  | .command w => runCommand w s
  | .write addr d => hostWrite addr d s
  | .expose addr => hostExpose addr s
  | .release addr => hostRelease addr s
  | .reset => hostReset s
  | .overlap first second => hostOverlap first second s

/-- One step of the machine. -/
def step (s : State) : Host.Outcome State Fault Refusal :=
  match fetch s with
  | .idle => idleStep s
  | .action act rest => perform act rest

/-- The state with the table's word issued as the host's next command, ahead of what is pending (log entry 4). -/
def State.withFetchWord (s : State) (nbits w : Nat) : State :=
  { s with inputs := issueFirst nbits w s.inputs }

end Sys2Proof.Machine
end

