-- ==== Sys2Proof/Machine/AsmText.lean ====
section
/-! DEFINITION. The text of an assembler line (`30_encoding.md` R60, R61): mnemonic first, operands separated by
commas, numbers in hexadecimal with `0x` or in decimal, `;` starting a comment. What R60 leaves open of the text is
log entry 19. -/

namespace Sys2Proof.Machine

/-- The line up to its comment. -/
def dropComment : List Char → List Char
  | [] => []
  | c :: cs => if c = ';' then [] else c :: dropComment cs

/-- A space or a tab. -/
def isBlank (c : Char) : Bool := c = ' ' || c = '\t'

/-- The text without blanks at either end. -/
def trim (cs : List Char) : List Char :=
  ((cs.dropWhile isBlank).reverse.dropWhile isBlank).reverse

/-- The value of a hexadecimal digit. -/
def hexDigit (c : Char) : Option Nat :=
  if '0' ≤ c ∧ c ≤ '9' then some (c.toNat - 48)
  else if 'A' ≤ c ∧ c ≤ 'F' then some (c.toNat - 55)
  else if 'a' ≤ c ∧ c ≤ 'f' then some (c.toNat - 87)
  else none

/-- The value of a run of digits in the given base, after `n`. -/
def digits (radix : Nat) : Nat → List Char → Option Nat
  | n, [] => some n
  | n, c :: cs =>
    match hexDigit c with
    | none => none
    | some v => if v < radix then digits radix (n * radix + v) cs else none

/-- A number: hexadecimal after `0x`, decimal otherwise. -/
def number (cs : List Char) : Option Nat :=
  match cs with
  | [] => none
  | ['0', 'x'] => none
  | '0' :: 'x' :: hex => digits 16 0 hex
  | decimal => digits 10 0 decimal

/-- The pieces of a text between its commas. -/
def splitCommas : List Char → List (List Char)
  | [] => [[]]
  | c :: cs =>
    if c = ',' then [] :: splitCommas cs
    else
      match splitCommas cs with
      | [] => [[c]]
      | piece :: pieces => (c :: piece) :: pieces

/-- The operands after a mnemonic. -/
def operands (cs : List Char) : Option (List Nat) :=
  if trim cs = [] then some [] else (splitCommas cs).mapM fun piece => number (trim piece)

/-- A mnemonic with its operands, where R60 or R61 has such a line. -/
def lineOf (mnemonic : List Char) (args : List Nat) : Option AsmLine :=
  if mnemonic = ['I', 'N', 'I', 'T'] then
    match args with
    | [] => some .initDefault
    | [seed] => some (.initSeed seed)
    | [seed, poly] => some (.init seed poly)
    | _ => none
  else if mnemonic = ['F', 'E', 'E', 'D', 'B', 'I', 'T'] then
    match args with
    | [t] => some (.feedbit t)
    | _ => none
  else if mnemonic = ['F', 'E', 'E', 'D', 'B', 'O', 'O', 'L'] then
    match args with
    | [v] => some (.feedbool v)
    | _ => none
  else if mnemonic = ['F', 'E', 'E', 'D', 'B', 'Y', 'T', 'E'] then
    match args with
    | [d] => some (.feedbyte d)
    | _ => none
  else if mnemonic = ['F', 'E', 'E', 'D', 'F', 'W', 'D'] then
    match args with
    | [base, len] => some (.feedfwd base len)
    | _ => none
  else if mnemonic = ['F', 'E', 'E', 'D', 'R', 'E', 'V'] then
    match args with
    | [base, len] => some (.feedrev base len)
    | _ => none
  else if mnemonic = ['G', 'E', 'T', 'R', 'E', 'S', 'U', 'L', 'T'] then
    match args with
    | [] => some .getresult
    | _ => none
  else none

/-- The commands a line of text assembles to: none where the line is not of R60's or R61's form or an operand is out
of range; no commands where it holds a comment at most. -/
def assembleText (text : List Char) : Option (List Instr) :=
  let body := trim (dropComment text)
  if body = [] then some []
  else
    match operands (body.dropWhile fun c => !isBlank c) with
    | none => none
    | some args => (lineOf (body.takeWhile fun c => !isBlank c) args).bind assemble

end Sys2Proof.Machine
end

