-- ==== Sys2Proof/Machine/Recovery.lean ====
section
/-! DEFINITION. The extension `60_exceptions.md` R110 allows: a run goes on past a `BoundsViolation`, with the fault
kept visible. It stands beside `step`, which stops there (log entries 7 and 14). -/

namespace Sys2Proof.Machine

/-- The fault of R100 that a stop reports (`60_exceptions.md` R105). -/
def reported : Fault → FaultRecord
  | .boundsViolation a => .boundsViolation a
  | .boundsViolationBeforeInit op _ => .uninitializedUse op

/-- The state a run goes on from after a feed met an unreadable byte: `register` unconstrained, everything else as
before, the fault recorded (`60_exceptions.md` R102, R110). The free value is a fresh one for each recorded fault. -/
def goOn (s : State) (f : Fault) : State :=
  (s.setRegister (Config.staleRegister s.faults.length)).record (reported f)

/-- One operation of a run that goes on. -/
def execOn (i : Instr) (s : State) : Host.Outcome State Fault Refusal :=
  match exec i s with
  | .next t => .next t
  | .fault f => .next (goOn s f)
  | .refused r => .refused r

/-- What one action of the host does in a run that goes on: only a command can meet an unreadable byte. -/
def performOn (act : HostAction) (s : State) : Host.Outcome State Fault Refusal :=
  match perform act s with
  | .next t => .next t
  | .fault f => .next (goOn s f)
  | .refused r => .refused r

/-- One step of a run that goes on. -/
def stepOn (s : State) : Host.Outcome State Fault Refusal :=
  match fetch s with
  | .idle => idleStep s
  | .action act rest => performOn act rest

end Sys2Proof.Machine
end

