-- ==== Sys2Proof/Safety.lean ====
section
/-! DEFINITION. The host's duties and what a clean run is (`60_exceptions.md` R98, `70_reset_and_hazards.md` R126,
R128), in the terms the statements use. -/

namespace Sys2Proof

open Machine

/-- A command's outcome is clean: it completed and no fault or refusal occurred, none recorded either
(`70_reset_and_hazards.md` R126). -/
def isClean (s : State) : Host.Outcome State Fault Refusal → Bool
  | .next t => t.faults = s.faults
  | .fault _ => false
  | .refused _ => false

/-- Byte `i` of a range is readable. -/
def readableAt (m : Memory) (base : Word) (i : Nat) : Bool :=
  (m.read (effectiveAddress base i)).isSome

/-- All `length` bytes of a range are readable (`60_exceptions.md` R98, `70_reset_and_hazards.md` R122). -/
def rangeReadable (m : Memory) (base : Word) (length : Byte) : Bool :=
  (List.range length.toNat).all (readableAt m base)

/-- The byte sequence `data` of a range: `ds[i] = Mem(base + i)` (`45_properties.md` R82), with any byte in the place
of an unreadable one. -/
def rangeBytes (m : Memory) (base : Word) (length : Byte) : List Byte :=
  (List.range length.toNat).map fun i => (m.read (effectiveAddress base i)).getD 0#8

/-- The duties the host has towards one operation: initialise first, keep the range readable (`60_exceptions.md` R98,
R114). -/
def dutiesMet (s : State) : Instr → Bool
  | .init _ _ => true
  | .feedbit _ => s.mode = .active
  | .feedfwd base length => s.mode = .active && rangeReadable s.mem base length
  | .feedrev base length => s.mode = .active && rangeReadable s.mem base length
  | .getresult => s.mode = .active

/-- The name under which an operation is recorded (`60_exceptions.md` R100). -/
def operationOf : Instr → Operation
  | .init _ _ => .init
  | .feedbit _ => .feedbit
  | .feedfwd _ _ => .feedfwd
  | .feedrev _ _ => .feedrev
  | .getresult => .getresult

/-- The operations carried out one after another, each in the state the one before left; the first outcome that is no
next state ends the run (`70_reset_and_hazards.md` R126). -/
def execAll : List Instr → State → Host.Outcome State Fault Refusal
  | [], s => .next s
  | i :: rest, s =>
    match exec i s with
    | .next t => execAll rest t
    | .fault f => .fault f
    | .refused r => .refused r

/-- The host's actions taken one after another, from a state with none of its own pending. -/
def runActions : List HostAction → State → Host.Outcome State Fault Refusal
  | [], s => .next s
  | act :: rest, s =>
    match perform act s with
    | .next t => runActions rest t
    | .fault f => .fault f
    | .refused r => .refused r

end Sys2Proof
end

