-- ==== Sys2Proof/Certificates/Slice0/Obligations.lean ====
section
/-! DEFINITION. What is claimed of the block, each statement from the numbered rules of `spec/` its docstring names. -/

open Sys2Proof Sys2Proof.Machine

/-! ### Command words -/

/-- R59, R60: decoding the canonical encoding of an operation gives it back, every operand at every value, also
through the table's numbering in whole bytes. -/
def Obligations.DecodeEncodeRoundTrip : Prop :=
  ∀ i : Instr, decode (encode i) = .instr i ∧ decodeTableWord 40 (encode i).toNat = some i

/-- R59 (with the fields of R50): the decoder on every word, its fields read arithmetically; it is not injective, and
`encode` is a right inverse of it. -/
def Obligations.DecoderOnEveryWord : Prop :=
  (∀ w : CommandWord,
    let op := w.toNat / 2 ^ 32
    let a := BitVec.ofNat 16 (w.toNat / 2 ^ 16)
    let b := BitVec.ofNat 16 w.toNat
    let bLow := BitVec.ofNat 8 w.toNat
    (op = 0x0 → decode w = .instr (.init a b)) ∧
    (op = 0x1 → decode w = .instr (.feedbit bLow)) ∧
    (op = 0x2 → decode w = .instr (.feedfwd a bLow)) ∧
    (op = 0x3 → decode w = .instr (.feedrev a bLow)) ∧
    (op = 0x4 → decode w = .instr .getresult) ∧
    (0x5 ≤ op → decode w = .reserved (BitVec.ofNat 4 op))) ∧
  (∃ w w' : CommandWord, w ≠ w' ∧ decode w = decode w') ∧
  (∀ i : Instr, decode (encode i) = .instr i)

/-- R51: a word selects the row whose `match` it has under the mask 0xF00000000, and the values 0x5 to 0xF of `op`
are reserved. -/
def Obligations.RowSelectedByMask : Prop :=
  ∀ w : CommandWord,
    (w &&& 0xF00000000#36 = 0x000000000#36 ↔ ∃ seed poly, decode w = .instr (.init seed poly)) ∧
    (w &&& 0xF00000000#36 = 0x100000000#36 ↔ ∃ t, decode w = .instr (.feedbit t)) ∧
    (w &&& 0xF00000000#36 = 0x200000000#36 ↔ ∃ base len, decode w = .instr (.feedfwd base len)) ∧
    (w &&& 0xF00000000#36 = 0x300000000#36 ↔ ∃ base len, decode w = .instr (.feedrev base len)) ∧
    (w &&& 0xF00000000#36 = 0x400000000#36 ↔ decode w = .instr .getresult) ∧
    (0x500000000#36 ≤ w &&& 0xF00000000#36 ↔ ∃ op, decode w = .reserved op)

/-- R56: a word spells an operation exactly when its used bits are those of the operation's canonical encoding; the
ignored bits may hold anything, and the canonical encoding has zeros there. -/
def Obligations.IgnoredBitsAreIgnored : Prop :=
  (∀ (w : CommandWord) (i : Instr), decode w = .instr i ↔ w &&& usedBits i = encode i) ∧
  (∀ seed poly, ~~~ usedBits (.init seed poly) = 0#36) ∧
  (∀ t, ~~~ usedBits (.feedbit t) = 0x0FFFFFF00#36) ∧
  (∀ base len, ~~~ usedBits (.feedfwd base len) = 0x00000FF00#36 ∧
    ~~~ usedBits (.feedrev base len) = 0x00000FF00#36) ∧
  ~~~ usedBits .getresult = 0x0FFFFFFFF#36 ∧
  (∀ i : Instr, encode i &&& ~~~ usedBits i = 0#36)

/-- R60: the canonical encoding as a number, and R60's examples. -/
def Obligations.CanonicalEncodingAsNumber : Prop :=
  (∀ seed poly : Word, (encode (.init seed poly)).toNat = 0x0 * 2 ^ 32 + seed.toNat * 2 ^ 16 + poly.toNat) ∧
  (∀ t : Byte, (encode (.feedbit t)).toNat = 0x1 * 2 ^ 32 + t.toNat) ∧
  (∀ (base : Word) (len : Byte),
    (encode (.feedfwd base len)).toNat = 0x2 * 2 ^ 32 + base.toNat * 2 ^ 16 + len.toNat ∧
    (encode (.feedrev base len)).toNat = 0x3 * 2 ^ 32 + base.toNat * 2 ^ 16 + len.toNat) ∧
  (encode .getresult).toNat = 0x4 * 2 ^ 32 ∧
  encode (.init 0xFFFF#16 0x1021#16) = 0x0FFFF1021#36 ∧
  encode (.feedbit 0xA5#8) = 0x1000000A5#36 ∧
  encode (.feedfwd 0x0100#16 9#8) = 0x201000009#36 ∧
  encode (.feedrev 0x0200#16 2#8) = 0x302000002#36 ∧
  encode .getresult = 0x400000000#36

/-- Words written out from `95_test_vectors.md` section 2.7 decode to the operations they stand for (R50 to R60). -/
def Obligations.SpecWordsDecode : Prop :=
  decode 0x0FFFF1021#36 = .instr (.init 0xFFFF#16 0x1021#16) ∧
  decode 0x1000000A5#36 = .instr (.feedbit 0xA5#8) ∧
  decode 0x1ABCD1280#36 = .instr (.feedbit 0x80#8) ∧
  decode 0x2010012FF#36 = .instr (.feedfwd 0x0100#16 0xFF#8) ∧
  decode 0x302000002#36 = .instr (.feedrev 0x0200#16 0x02#8) ∧
  decode 0x4DEADBEEF#36 = .instr .getresult ∧
  decode 0x500000000#36 = .reserved 0x5#4 ∧
  decode 0xFFFFFFFFF#36 = .reserved 0xF#4

/-- R61: what each pseudo-instruction expands to, and that FEEDBYTE's eight commands have `StepByte`'s effect on
`register`. -/
def Obligations.PseudoInstructionsExpand : Prop :=
  assemble .initDefault = some [.init 0xFFFF#16 0x1021#16] ∧
  (∀ seed : Word, assemble (.initSeed seed.toNat) = some [.init seed 0x1021#16]) ∧
  assemble (.feedbool 1) = some [.feedbit 0x80#8] ∧
  assemble (.feedbool 0) = some [.feedbit 0x00#8] ∧
  (∀ d : Byte, ∃ cmds, assemble (.feedbyte d.toNat) = some cmds ∧ cmds.length = 8 ∧
    (∀ k, k < 8 → cmds[k]? = some (.feedbit (BitVec.ofNat 8 (d.toNat * 2 ^ k % 256)))) ∧
    ∀ s : State, s.mode = .active →
      execAll cmds s = .next { s with register := stepByte s.register s.polynomial d })

/-- R57: a command word whose `op` is 0x5 to 0xF is refused as `ReservedOpcode`, whatever the state; there is no
next state. -/
def Obligations.ReservedCommandRefused : Prop :=
  ∀ (s : State) (w : CommandWord) (rest : List HostAction),
    s.inputs = .command w :: rest → 0x5 ≤ w.toNat / 2 ^ 32 →
      step s = .refused (.reservedOpcode (BitVec.ofNat 4 (w.toNat / 2 ^ 32)))

/-- R48: when the host's next action is a command word that decodes to an operation, the step is that operation in
the state with that action taken off the pending ones, and nothing else. -/
def Obligations.StepRunsDecodedCommand : Prop :=
  ∀ (s : State) (w : CommandWord) (i : Instr) (rest : List HostAction),
    s.inputs = .command w :: rest → decode w = .instr i → step s = exec i { s with inputs := rest }

/-! ### The five operations -/

/-- R63: INIT in either mode, for every operand, and its encoding. -/
def Obligations.InitLoadsSeedAndPolynomial : Prop :=
  (∀ (seed poly : Word) (s : State),
    exec (.init seed poly) s = .next { s with register := seed, polynomial := poly, mode := .active }) ∧
  (∀ (w : CommandWord) (s : State), w.toNat / 2 ^ 32 = 0x0 →
    runCommand w s = .next { s with
      register := BitVec.ofNat 16 (w.toNat / 2 ^ 16), polynomial := BitVec.ofNat 16 w.toNat, mode := .active })

/-- R66: FEEDBIT in each mode, its encoding and its worked example. In Uninitialized mode it is carried out on the held
values and `UninitializedUse` recorded (R103; log entry 6). -/
def Obligations.FeedbitAdvancesOneBit : Prop :=
  (∀ (t : Byte) (s : State), s.mode = .active →
    exec (.feedbit t) s = .next { s with register := stepBit s.register s.polynomial t }) ∧
  (∀ (t : Byte) (s : State), s.mode = .uninitialized →
    exec (.feedbit t) s = .next { s with
      register := stepBit s.register s.polynomial t, faults := s.faults ++ [.uninitializedUse .feedbit] }) ∧
  (∀ (w : CommandWord) (s : State), w.toNat / 2 ^ 32 = 0x1 →
    runCommand w s = exec (.feedbit (BitVec.ofNat 8 w.toNat)) s) ∧
  (∀ s : State, s.mode = .active → s.register = 0xFFFF#16 → s.polynomial = 0x1021#16 →
    runCommand 0x100000000#36 s = .next { s with register := 0xEFDF#16 })

/-- R67: the three steps of `StepBit`, with step 1's value `(zext_16(t) * 256) AND 0x8000`, and the table of its four
cases; the shift discards what step 1 changed; the source's first wording of step 1 gives 0 for both input bits. -/
def Obligations.StepBitThreeSteps : Prop :=
  ∀ (r p : Word) (t : Byte),
    (let u := r ^^^ ((t.setWidth 16 * 256#16) &&& 0x8000#16)
     stepBit r p t = if u.getLsbD 15 then (u <<< 1) ^^^ p else u <<< 1) ∧
    (r.getLsbD 15 = false → t.getLsbD 7 = false → stepBit r p t = r <<< 1) ∧
    (r.getLsbD 15 = false → t.getLsbD 7 = true → stepBit r p t = (r <<< 1) ^^^ p) ∧
    (r.getLsbD 15 = true → t.getLsbD 7 = false → stepBit r p t = (r <<< 1) ^^^ p) ∧
    (r.getLsbD 15 = true → t.getLsbD 7 = true → stepBit r p t = r <<< 1) ∧
    (r ^^^ ((t.setWidth 16 * 256#16) &&& 0x8000#16)) <<< 1 = r <<< 1 ∧
    ∀ inBit : Bool, ((if inBit then 1#16 else 0#16) <<< 8) &&& 0x8000#16 = 0x0000#16

/-- R68: the three equivalent forms of `StepBit`: by the feedback, bit by bit, and on naturals. -/
def Obligations.StepBitEquivalentForms : Prop :=
  ∀ (r p : Word) (t : Byte),
    let fb := r.getLsbD 15 ^^ t.getLsbD 7
    stepBit r p t = shl16 r ^^^ (if fb then p else 0x0000#16) ∧
    ((stepBit r p t).getLsbD 0 = (fb && p.getLsbD 0) ∧
      ∀ j, 1 ≤ j → j ≤ 15 → (stepBit r p t).getLsbD j = (r.getLsbD (j - 1) ^^ (fb && p.getLsbD j))) ∧
    (stepBit r p t).toNat = (2 * r.toNat % 65536) ^^^ (fb.toNat * p.toNat)

/-- R53, R69, R91: bits 6 to 0 of FEEDBIT's argument have no effect: on `StepBit`, on the operation, on a command
word, and on a sequence of FEEDBIT operations. -/
def Obligations.OnlyTopBitOfArgumentMatters : Prop :=
  (∀ (r p : Word) (t : Byte), stepBit r p t = stepBit r p (t &&& 0x80#8)) ∧
  (∀ (t t' : Byte) (s : State), t.getLsbD 7 = t'.getLsbD 7 → exec (.feedbit t) s = exec (.feedbit t') s) ∧
  (∀ (w w' : CommandWord) (s : State), w.toNat / 2 ^ 32 = 0x1 → w'.toNat / 2 ^ 32 = 0x1 →
    w.getLsbD 7 = w'.getLsbD 7 → runCommand w s = runCommand w' s) ∧
  (∀ (ts : List Byte) (s : State),
    execAll (ts.map .feedbit) s = execAll (ts.map fun t => .feedbit (t &&& 0x80#8)) s)

/-- R70: the special values of the bit step. -/
def Obligations.StepBitSpecialValues : Prop :=
  (∀ (p : Word) (t : Byte), t.getLsbD 7 = false → stepBit 0x0000#16 p t = 0x0000#16) ∧
  (∀ (r : Word) (t : Byte), stepBit r 0x0000#16 t = shl16 r) ∧
  (∀ (p : Word) (t : Byte), t.getLsbD 7 = true → stepBit 0x8000#16 p t = 0x0000#16)

/-- R72: `StepByte` as eight `StepBit` steps on `(d * 2^k) mod 256`, step `k` examining bit `7 - k`. -/
def Obligations.StepByteFeedsTopBitFirst : Prop :=
  ∀ (r p : Word) (d : Byte),
    stepByte r p d =
      (List.range 8).foldl (fun r k => stepBit r p (BitVec.ofNat 8 (d.toNat * 2 ^ k % 256))) r ∧
    ∀ k, k < 8 → (BitVec.ofNat 8 (d.toNat * 2 ^ k % 256)).getLsbD 7 = d.getLsbD (7 - k)

/-- R73: FEEDFWD in each mode: the bytes fed in ascending order where all are readable, the first unreadable address
otherwise; its encoding, a range past 0xFFFF, and its worked example. In Uninitialized mode it is carried out on the
held values and `UninitializedUse` recorded (R103; log entry 6). -/
def Obligations.FeedfwdFeedsAscending : Prop :=
  (∀ (base : Word) (len : Byte) (ds : List Byte) (s : State), s.mode = .active → ds.length = len.toNat →
    (∀ i d, ds[i]? = some d → s.mem.read (base.toNat + i) = some d) →
      exec (.feedfwd base len) s = .next { s with register := fwd s.register s.polynomial ds }) ∧
  (∀ (base : Word) (len : Byte) (ds : List Byte) (s : State), s.mode = .uninitialized → ds.length = len.toNat →
    (∀ i d, ds[i]? = some d → s.mem.read (base.toNat + i) = some d) →
      exec (.feedfwd base len) s = .next { s with
        register := fwd s.register s.polynomial ds, faults := s.faults ++ [.uninitializedUse .feedfwd] }) ∧
  (∀ (base : Word) (len : Byte) (i : Nat) (s : State), s.mode = .active → i < len.toNat →
    (∀ j, j < i → (s.mem.read (base.toNat + j)).isSome) → s.mem.read (base.toNat + i) = none →
      exec (.feedfwd base len) s = .fault (.boundsViolation (base.toNat + i))) ∧
  (∀ (base : Word) (len : Byte) (s : State), s.mode = .active → 65536 < base.toNat + len.toNat →
    (∀ a, base.toNat ≤ a → a < 65536 → (s.mem.read a).isSome) →
      exec (.feedfwd base len) s = .fault (.boundsViolation 65536)) ∧
  (∀ (base : Word) (s : State), s.mode = .active → exec (.feedfwd base 1#8) s = exec (.feedrev base 1#8) s) ∧
  (∀ (w : CommandWord) (s : State), w.toNat / 2 ^ 32 = 0x2 →
    runCommand w s = exec (.feedfwd (BitVec.ofNat 16 (w.toNat / 2 ^ 16)) (BitVec.ofNat 8 w.toNat)) s) ∧
  (∀ s : State, s.mode = .active → s.register = 0xFFFF#16 → s.polynomial = 0x1021#16 →
    s.mem.read 0x0100 = some 0x00#8 → runCommand 0x201000001#36 s = .next { s with register := 0xE1F0#16 })

/-- R74: FEEDREV in each mode: the bytes fed in descending order where all are readable, the highest unreadable
address otherwise; its encoding, a range past 0xFFFF, and its worked example. In Uninitialized mode it is carried out
on the held values and `UninitializedUse` recorded (R103; log entry 6). -/
def Obligations.FeedrevFeedsDescending : Prop :=
  (∀ (base : Word) (len : Byte) (ds : List Byte) (s : State), s.mode = .active → ds.length = len.toNat →
    (∀ i d, ds[i]? = some d → s.mem.read (base.toNat + i) = some d) →
      exec (.feedrev base len) s = .next { s with register := fwd s.register s.polynomial ds.reverse }) ∧
  (∀ (base : Word) (len : Byte) (ds : List Byte) (s : State), s.mode = .uninitialized → ds.length = len.toNat →
    (∀ i d, ds[i]? = some d → s.mem.read (base.toNat + i) = some d) →
      exec (.feedrev base len) s = .next { s with
        register := fwd s.register s.polynomial ds.reverse, faults := s.faults ++ [.uninitializedUse .feedrev] }) ∧
  (∀ (base : Word) (len : Byte) (i : Nat) (s : State), s.mode = .active → i < len.toNat →
    (∀ j, i < j → j < len.toNat → (s.mem.read (base.toNat + j)).isSome) → s.mem.read (base.toNat + i) = none →
      exec (.feedrev base len) s = .fault (.boundsViolation (base.toNat + i))) ∧
  (∀ (base : Word) (len : Byte) (s : State), s.mode = .active → 65536 < base.toNat + len.toNat →
    exec (.feedrev base len) s = .fault (.boundsViolation (base.toNat + len.toNat - 1))) ∧
  (∀ (w : CommandWord) (s : State), w.toNat / 2 ^ 32 = 0x3 →
    runCommand w s = exec (.feedrev (BitVec.ofNat 16 (w.toNat / 2 ^ 16)) (BitVec.ofNat 8 w.toNat)) s) ∧
  (∀ s : State, s.mode = .active → s.register = 0xFFFF#16 → s.polynomial = 0x1021#16 →
    s.mem.read 0x0200 = some 0x02#8 → s.mem.read 0x0201 = some 0x01#8 →
      runCommand 0x302000002#36 s = .next { s with register := 0x0E7C#16 } ∧
      runCommand 0x202000002#36 s = .next { s with register := 0x6B4C#16 })

/-- R45, R89: a feed of zero length reads nothing, so it never stops at an unreadable byte, whatever the base and the
memory, and leaves `register` and all else the block has as it was, in either mode. What it records in Uninitialized
mode is `ZeroLengthBeforeInit`. -/
def Obligations.ZeroLengthFeedIsNoOp : Prop :=
  (∀ (base : Word) (s : State),
    (∀ f, exec (.feedfwd base 0#8) s ≠ .fault f ∧ exec (.feedrev base 0#8) s ≠ .fault f) ∧
    (∀ t, exec (.feedfwd base 0#8) s = .next t → t = { s with faults := t.faults }) ∧
    ∀ t, exec (.feedrev base 0#8) s = .next t → t = { s with faults := t.faults }) ∧
  (∀ (base : Word) (s : State), s.mode = .active →
    exec (.feedfwd base 0#8) s = .next s ∧ exec (.feedrev base 0#8) s = .next s) ∧
  (∀ r p : Word, fwd r p [] = r ∧ rev r p [] = r)

/-- R75, its last sentence: in Uninitialized mode a feed of zero length leaves everything as it was, as on the hardware,
and `UninitializedUse` is recorded (log entry 6). -/
def Obligations.ZeroLengthBeforeInit : Prop :=
  ∀ (base : Word) (s : State), s.mode = .uninitialized →
    exec (.feedfwd base 0#8) s = .next { s with faults := s.faults ++ [.uninitializedUse .feedfwd] } ∧
    exec (.feedrev base 0#8) s = .next { s with faults := s.faults ++ [.uninitializedUse .feedrev] }

/-- R79: GETRESULT in each mode, its encoding, the seed as its response directly after INIT, and its worked
example. In Uninitialized mode it responds the held value and `UninitializedUse` is recorded (R103; log entry 6). -/
def Obligations.GetresultRespondsRegister : Prop :=
  (∀ s : State, s.mode = .active → exec .getresult s = .next { s with responses := s.responses ++ [s.register] }) ∧
  (∀ s : State, s.mode = .uninitialized → exec .getresult s = .next { s with
    responses := s.responses ++ [s.register], faults := s.faults ++ [.uninitializedUse .getresult] }) ∧
  (∀ (w : CommandWord) (s : State), w.toNat / 2 ^ 32 = 0x4 → runCommand w s = exec .getresult s) ∧
  (∀ (seed poly : Word) (s : State), ∃ t, execAll [.init seed poly, .getresult] s = .next t ∧
    t.responses = s.responses ++ [seed]) ∧
  (∀ (base : Word) (s : State), s.mem.read base.toNat = some 0x00#8 →
    ∃ t, execAll [.init 0xFFFF#16 0x1021#16, .feedfwd base 1#8, .getresult] s = .next t ∧
      t.responses = s.responses ++ [0xE1F0#16])

/-! ### Outcomes, priority and frames -/

/-- R114: which operation can end in which outcome, `UninitializedUse` being an outcome the run records while the
operation is carried out (R103, R108; log entry 6): INIT always completes and records nothing, FEEDBIT and GETRESULT
always complete, a feed completes exactly when its bytes are readable, and `UninitializedUse` is recorded, or reported
at an unreadable byte, exactly in Uninitialized mode. -/
def Obligations.OutcomesByOperation : Prop :=
  ∀ s : State,
    (∀ seed poly, ∃ t, exec (.init seed poly) s = .next t ∧ t.faults = s.faults) ∧
    (∀ b : Byte, ∃ t, exec (.feedbit b) s = .next t ∧ t.faults = s.faults ++ usesRecorded .feedbit s) ∧
    (∃ t, exec .getresult s = .next t ∧ t.faults = s.faults ++ usesRecorded .getresult s) ∧
    (∀ op, usesRecorded op s = if s.mode = .uninitialized then [.uninitializedUse op] else []) ∧
    ∀ (base : Word) (len : Byte),
      ((∃ t, exec (.feedfwd base len) s = .next t) ↔ ∀ i, i < len.toNat → (s.mem.read (base.toNat + i)).isSome) ∧
      ((∃ t, exec (.feedrev base len) s = .next t) ↔ ∀ i, i < len.toNat → (s.mem.read (base.toNat + i)).isSome) ∧
      (∀ t, exec (.feedfwd base len) s = .next t → t.faults = s.faults ++ usesRecorded .feedfwd s) ∧
      (∀ t, exec (.feedrev base len) s = .next t → t.faults = s.faults ++ usesRecorded .feedrev s) ∧
      ((∃ a, exec (.feedfwd base len) s = .fault (.boundsViolation a)) ↔
        s.mode = .active ∧ ∃ i, i < len.toNat ∧ s.mem.read (base.toNat + i) = none) ∧
      ((∃ a, exec (.feedrev base len) s = .fault (.boundsViolation a)) ↔
        s.mode = .active ∧ ∃ i, i < len.toNat ∧ s.mem.read (base.toNat + i) = none) ∧
      ((∃ a, exec (.feedfwd base len) s = .fault (.boundsViolationBeforeInit .feedfwd a)) ↔
        s.mode = .uninitialized ∧ ∃ i, i < len.toNat ∧ s.mem.read (base.toNat + i) = none) ∧
      ((∃ a, exec (.feedrev base len) s = .fault (.boundsViolationBeforeInit .feedrev a)) ↔
        s.mode = .uninitialized ∧ ∃ i, i < len.toNat ∧ s.mem.read (base.toNat + i) = none)

/-- R98, R126: an operation is clean (a next state and no fault recorded) exactly when the host has met its duties
towards it, and never ends in a refusal. -/
def Obligations.CleanIffDutiesMet : Prop :=
  ∀ (i : Instr) (s : State),
    (isClean s (exec i s) = dutiesMet s i) ∧ ∀ r, exec i s ≠ .refused r

/-- R105: the order in which outcomes are reported: a reserved word before all, the mode before the range (log entry 6),
and within a feed the first unreadable byte in feeding order. -/
def Obligations.OutcomePriority : Prop :=
  (∀ (w : CommandWord) (s : State), 0x5 ≤ w.toNat / 2 ^ 32 →
    runCommand w s = .refused (.reservedOpcode (BitVec.ofNat 4 (w.toNat / 2 ^ 32)))) ∧
  (∀ (base : Word) (len : Byte) (s : State), s.mode = .uninitialized →
    (∃ i, i < len.toNat ∧ s.mem.read (base.toNat + i) = none) →
      (∃ f, exec (.feedfwd base len) s = .fault f ∧ reported f = .uninitializedUse .feedfwd) ∧
      ∃ f, exec (.feedrev base len) s = .fault f ∧ reported f = .uninitializedUse .feedrev) ∧
  (∀ (base : Word) (len : Byte) (a : Nat) (s : State),
    exec (.feedfwd base len) s = .fault (.boundsViolation a) ∨
      exec (.feedfwd base len) s = .fault (.boundsViolationBeforeInit .feedfwd a) →
      ∃ i, i < len.toNat ∧ a = base.toNat + i ∧ s.mem.read a = none ∧
        ∀ j, j < i → (s.mem.read (base.toNat + j)).isSome) ∧
  (∀ (base : Word) (len : Byte) (a : Nat) (s : State),
    exec (.feedrev base len) s = .fault (.boundsViolation a) ∨
      exec (.feedrev base len) s = .fault (.boundsViolationBeforeInit .feedrev a) →
      ∃ i, i < len.toNat ∧ a = base.toNat + i ∧ s.mem.read a = none ∧
        ∀ j, i < j → j < len.toNat → (s.mem.read (base.toNat + j)).isSome)

/-- R36, R62 (and the writes of R26): what each operation leaves unchanged. Memory reads as before at every address,
and only GETRESULT responds. -/
def Obligations.OperationFrames : Prop :=
  ∀ (i : Instr) (s t : State), exec i s = .next t →
    t.mem = s.mem ∧ (∀ a, t.mem.read a = s.mem.read a) ∧ t.inputs = s.inputs ∧ t.resets = s.resets ∧
    (s.mode = .active → t.faults = s.faults) ∧
    match i with
    | .init _ _ => t.responses = s.responses ∧ t.faults = s.faults
    | .feedbit _ => t.polynomial = s.polynomial ∧ t.mode = s.mode ∧ t.responses = s.responses
    | .feedfwd _ _ => t.polynomial = s.polynomial ∧ t.mode = s.mode ∧ t.responses = s.responses
    | .feedrev _ _ => t.polynomial = s.polynomial ∧ t.mode = s.mode ∧ t.responses = s.responses
    | .getresult => t.register = s.register ∧ t.polynomial = s.polynomial ∧ t.mode = s.mode ∧
        t.responses = s.responses ++ [s.register]

/-- R19: the transitions of `mode`, and that nothing but a reset returns the block to Uninitialized. An operation other
than INIT in Uninitialized mode stays there, as on the hardware, and the fault is recorded (log entry 6). -/
def Obligations.ModeTransitions : Prop :=
  State.reset.mode = .uninitialized ∧
  (∀ s : State, ∃ t, perform .reset s = .next t ∧ t.mode = .uninitialized) ∧
  (∀ (seed poly : Word) (s : State), ∃ t, exec (.init seed poly) s = .next t ∧ t.mode = .active) ∧
  (∀ (i : Instr) (s t : State), (∀ seed poly, i ≠ .init seed poly) → exec i s = .next t → t.mode = s.mode) ∧
  (∀ (i : Instr) (s t : State), (∀ seed poly, i ≠ .init seed poly) → s.mode = .uninitialized →
    exec i s = .next t → t.mode = .uninitialized ∧
      t.faults = s.faults ++ [.uninitializedUse (operationOf i)]) ∧
  (∀ s t : State, step s = .next t → s.mode = .active → t.mode = .uninitialized →
    s.inputs.head? = some .reset)

/-- R17: `polynomial` keeps its value through every run of the host's actions that holds no INIT and no reset. -/
def Obligations.PolynomialConstantBetweenInits : Prop :=
  ∀ (acts : List HostAction) (s t : State),
    (∀ act ∈ acts, act ≠ .reset ∧ ∀ w, act = .command w → ∀ seed poly, decode w ≠ .instr (.init seed poly)) →
    runActions acts s = .next t → t.polynomial = s.polynomial

/-- R38, R81: two blocks with the same `register`, `polynomial` and `mode`, given the same operations over ranges whose
bytes (or unreadable addresses) agree, end alike: equal faults, or equal `register`, `polynomial`, `mode`, new
responses and newly recorded faults. No other address has any influence. -/
def Obligations.OperationsDependOnTheirReadsOnly : Prop :=
  ∀ (cmds : List Instr) (s s' : State),
    s.register = s'.register → s.polynomial = s'.polynomial → s.mode = s'.mode →
    (∀ (base : Word) (len : Byte), Instr.feedfwd base len ∈ cmds ∨ Instr.feedrev base len ∈ cmds →
      ∀ i, i < len.toNat → s.mem.read (base.toNat + i) = s'.mem.read (base.toNat + i)) →
    match execAll cmds s, execAll cmds s' with
    | .next t, .next t' => t.register = t'.register ∧ t.polynomial = t'.polynomial ∧ t.mode = t'.mode ∧
        (∃ new, t.responses = s.responses ++ new ∧ t'.responses = s'.responses ++ new) ∧
        ∃ new, t.faults = s.faults ++ new ∧ t'.faults = s'.faults ++ new
    | .fault f, .fault f' => f = f'
    | _, _ => False

/-! ### Laws over sequences -/

/-- R83: a one-byte feed, in either direction, is eight FEEDBIT operations on the byte shifted left once per
operation, and equally on `0x80 * d[7-k]`. -/
def Obligations.ByteFeedIsEightBitFeeds : Prop :=
  ∀ (base : Word) (d : Byte) (s : State), s.mode = .active → s.mem.read base.toNat = some d →
    exec (.feedfwd base 1#8) s = .next { s with register := stepByte s.register s.polynomial d } ∧
    exec (.feedrev base 1#8) s = exec (.feedfwd base 1#8) s ∧
    execAll ((List.range 8).map fun k => .feedbit (BitVec.ofNat 8 (d.toNat * 2 ^ k % 256))) s =
      exec (.feedfwd base 1#8) s ∧
    execAll ((List.range 8).map fun k => .feedbit (if d.getLsbD (7 - k) then 0x80#8 else 0x00#8)) s =
      exec (.feedfwd base 1#8) s

/-- R84: a reverse feed is a forward feed over the bytes in reverse order, the bits of each byte not reversed. -/
def Obligations.ReverseFeedIsForwardOverReversed : Prop :=
  (∀ (r p : Word) (ds : List Byte), rev r p ds = fwd r p ds.reverse) ∧
  (∀ (r p : Word) (d : Byte), rev r p [d] = fwd r p [d]) ∧
  (∀ (r p : Word) (ds : List Byte), ds.reverse = ds → rev r p ds = fwd r p ds) ∧
  (∀ (base base' : Word) (len : Byte) (s : State), s.mode = .active →
    (∀ i, i < len.toNat → (s.mem.read (base.toNat + i)).isSome ∧
      s.mem.read (base'.toNat + i) = s.mem.read (base.toNat + (len.toNat - 1 - i))) →
    ∃ t, exec (.feedrev base len) s = .next t ∧ exec (.feedfwd base' len) s = .next t)

/-- R85: feeds split and join, on byte sequences and on the machine (in Active mode, as every rule of
`45_properties.md`). The ranges of R85 are readable, so `base + m` is an
address; the equation on the machine holds over unreadable bytes as well, with the same fault on both sides. -/
def Obligations.FeedsSplitAndJoin : Prop :=
  (∀ (r p : Word) (xs ys : List Byte), fwd r p (xs ++ ys) = fwd (fwd r p xs) p ys) ∧
  (∀ (r p : Word) (xs ys : List Byte), rev r p (xs ++ ys) = rev (rev r p ys) p xs) ∧
  (∀ (base : Word) (m n : Byte) (s : State), s.mode = .active →
    m.toNat + n.toNat < 256 → base.toNat + m.toNat < 65536 →
      exec (.feedfwd base (m + n)) s = execAll [.feedfwd base m, .feedfwd (base + m.setWidth 16) n] s ∧
      exec (.feedrev base (m + n)) s = execAll [.feedrev (base + m.setWidth 16) n, .feedrev base m] s)

/-- R86: order sensitivity as far as it is true: it holds for every polynomial with bit 0 set (0x1021 among them), not
for 0x0000, 0x8000, 0x0100 or 0x1000, and the seed plays no part. -/
def Obligations.OrderSensitivity : Prop :=
  (∀ (r p : Word) (x y : Byte), rev r p [x, y] = fwd r p [y, x]) ∧
  (∀ (r p : Word) (x y : Byte), p.getLsbD 0 = true → x ≠ y → fwd r p [x, y] ≠ rev r p [x, y]) ∧
  (∀ (r : Word) (x y : Byte), x ≠ y → fwd r 0x1021#16 [x, y] ≠ rev r 0x1021#16 [x, y]) ∧
  (∀ (r : Word) (x y : Byte), fwd r 0x0000#16 [x, y] = 0x0000#16 ∧
    fwd r 0x0000#16 [x, y] = rev r 0x0000#16 [x, y] ∧ fwd r 0x8000#16 [x, y] = rev r 0x8000#16 [x, y] ∧
    fwd r 0x0100#16 [x, y] = rev r 0x0100#16 [x, y] ∧ fwd r 0x1000#16 [x, y] = rev r 0x1000#16 [x, y]) ∧
  (∀ (r p : Word) (x y : Byte),
    fwd r p [x, y] ^^^ rev r p [x, y] = fwd 0x0000#16 p [x ^^^ y, x ^^^ y])

/-- R87: after `INIT s, p` the block's state is (s, p, Active) whatever came before, and two runs that end in the same
INIT agree from there on over the same memory and the same commands and memory changes: equal stops, or states that
differ only in what was answered, recorded and counted before and in what is pending. -/
def Obligations.InitDiscardsHistory : Prop :=
  ∀ (seed poly : Word) (acts : List HostAction) (s s' : State),
    s.mem = s'.mem → (∀ act ∈ acts, act ≠ .reset) →
    ∃ t t', exec (.init seed poly) s = .next t ∧ exec (.init seed poly) s' = .next t' ∧
      (t.register = seed ∧ t.polynomial = poly ∧ t.mode = .active) ∧
      (t'.register = seed ∧ t'.polynomial = poly ∧ t'.mode = .active) ∧
      match runActions acts t, runActions acts t' with
      | .next u, .next u' =>
          u' = { u with
            responses := u'.responses, inputs := s'.inputs, faults := s'.faults, resets := s'.resets } ∧
          u.faults = s.faults ∧
          ∃ new, u.responses = s.responses ++ new ∧ u'.responses = s'.responses ++ new
      | .fault f, .fault f' => f = f'
      | .refused r, .refused r' => r = r'
      | _, _ => False

/-- R88: the known answers for the single byte 0x00 and for "123456789". -/
def Obligations.KnownAnswers : Prop :=
  fwd 0xFFFF#16 0x1021#16 [0x00#8] = 0xE1F0#16 ∧
  fwd 0xFFFF#16 0x1021#16 [0x31#8, 0x32#8, 0x33#8, 0x34#8, 0x35#8, 0x36#8, 0x37#8, 0x38#8, 0x39#8] = 0x29B1#16

/-- R90: polynomial sensitivity as far as it is true. Over bits that give no feedback the polynomial has no influence;
directly after the first step with feedback the two registers differ by `p1 XOR p2`; later they may be equal again. -/
def Obligations.PolynomialSensitivity : Prop :=
  (∀ (seed p₁ p₂ : Word) (ts : List Byte),
    (∀ pre t post, ts = pre ++ t :: post → ((feedBits seed p₁ pre).getLsbD 15 ^^ t.getLsbD 7) = false) →
      feedBits seed p₁ ts = feedBits seed p₂ ts ∧
      ∀ t : Byte, ((feedBits seed p₁ ts).getLsbD 15 ^^ t.getLsbD 7) = true →
        feedBits seed p₁ (ts ++ [t]) ^^^ feedBits seed p₂ (ts ++ [t]) = p₁ ^^^ p₂ ∧
        (p₁ ≠ p₂ → feedBits seed p₁ (ts ++ [t]) ≠ feedBits seed p₂ (ts ++ [t]))) ∧
  (fwd 0xFFFF#16 0x0106#16 [0x00#8] = 0x0202#16 ∧ fwd 0xFFFF#16 0x0203#16 [0x00#8] = 0x0202#16 ∧
    ((0xFFFF#16).getLsbD 15 ^^ (0x00#8).getLsbD 7) = true)

/-- R92: linearity of the steps for a fixed polynomial, its consequences, and that it fails across polynomials. -/
def Obligations.LinearityOfFeeds : Prop :=
  (∀ (r₁ r₂ p : Word) (t₁ t₂ : Byte),
    stepBit (r₁ ^^^ r₂) p (t₁ ^^^ t₂) = stepBit r₁ p t₁ ^^^ stepBit r₂ p t₂) ∧
  (∀ (r₁ r₂ p : Word) (d₁ d₂ : Byte),
    stepByte (r₁ ^^^ r₂) p (d₁ ^^^ d₂) = stepByte r₁ p d₁ ^^^ stepByte r₂ p d₂) ∧
  (∀ (r₁ r₂ p : Word) (xs ys : List Byte), xs.length = ys.length →
    fwd (r₁ ^^^ r₂) p (List.zipWith (· ^^^ ·) xs ys) = fwd r₁ p xs ^^^ fwd r₂ p ys) ∧
  (∀ p : Word, stepBit 0x0000#16 p 0x00#8 = 0x0000#16) ∧
  (∀ (r e p : Word) (ts : List Byte),
    feedBits (r ^^^ e) p ts = feedBits r p ts ^^^ feedBits e p (List.replicate ts.length 0x00#8)) ∧
  (∃ (r₁ r₂ p₁ p₂ : Word) (t₁ t₂ : Byte),
    stepBit (r₁ ^^^ r₂) (p₁ ^^^ p₂) (t₁ ^^^ t₂) ≠ stepBit r₁ p₁ t₁ ^^^ stepBit r₂ p₂ t₂)

open Polynomial in
/-- A `w`-bit value read as the polynomial over the two-element field whose coefficient of x^j is bit j (R93). -/
noncomputable def Sys2Proof.polynomialOfBits (w : Nat) (v : BitVec w) : (ZMod 2)[X] :=
  ∑ j ∈ Finset.range w, if v.getLsbD j then X ^ j else 0

open Polynomial in
/-- R93: the register is the remainder of polynomial division. With `G = x^16 + polynomial` and the bits fed read as
the polynomial `M`, first bit highest, `register = (s * x^n + M * x^16) mod G` over the two-element field; for bytes
`M` is the bytes as one number, most significant first, and `n` is eight times their count. -/
def Obligations.RegisterIsPolynomialRemainder : Prop :=
  ∀ seed p : Word,
    (∀ ts : List Byte,
      polynomialOfBits 16 (feedBits seed p ts) =
        (polynomialOfBits 16 seed * X ^ ts.length +
          ts.foldl (fun m t => m * X + if t.getLsbD 7 then 1 else 0) 0 * X ^ 16) %ₘ
            (X ^ 16 + polynomialOfBits 16 p)) ∧
    (∀ ds : List Byte,
      polynomialOfBits 16 (fwd seed p ds) =
        (polynomialOfBits 16 seed * X ^ (8 * ds.length) +
          ds.foldl (fun m d => m * X ^ 8 + polynomialOfBits 8 d) 0 * X ^ 16) %ₘ
            (X ^ 16 + polynomialOfBits 16 p))

/-- R94: feeding the register to itself, high byte first, leaves zero; so a receiver that feeds the transmitted CRC
ends at zero when it equals its own, and, when bit 0 of the polynomial is 1, only then. -/
def Obligations.FeedingRegisterToItselfGivesZero : Prop :=
  (∀ r p : Word, fwd r p [r.extractLsb' 8 8, r.extractLsb' 0 8] = 0x0000#16) ∧
  (∀ r p : Word, rev r p [r.extractLsb' 0 8, r.extractLsb' 8 8] = 0x0000#16) ∧
  (∀ r p : Word,
    feedBits r p ((List.range 16).map fun k => if r.getLsbD (15 - k) then 0x80#8 else 0x00#8) = 0x0000#16) ∧
  (∀ r c p : Word, fwd r p [c.extractLsb' 8 8, c.extractLsb' 0 8] =
    fwd 0x0000#16 p [(r ^^^ c).extractLsb' 8 8, (r ^^^ c).extractLsb' 0 8]) ∧
  (∀ r c p : Word, p.getLsbD 0 = true →
    (fwd r p [c.extractLsb' 8 8, c.extractLsb' 0 8] = 0x0000#16 ↔ c = r)) ∧
  (∀ r c : Word, fwd r 0x0000#16 [c.extractLsb' 8 8, c.extractLsb' 0 8] = 0x0000#16)

/-- R95: with polynomial 0x0000 the block is a plain left shift register. -/
def Obligations.ZeroPolynomialShiftsOnly : Prop :=
  (∀ (r : Word) (t : Byte), stepBit r 0x0000#16 t = shl16 r) ∧
  (∀ (r : Word) (d : Byte), (stepByte r 0x0000#16 d).toNat = r.toNat * 256 % 65536) ∧
  (∀ (r : Word) (ts : List Byte), 16 ≤ ts.length → feedBits r 0x0000#16 ts = 0x0000#16)

/-- R96: a GETRESULT inserted anywhere in the commands and memory changes of a run changes no later state and no other
response, and one taken out likewise; and the block's state after INIT does not depend on any state before. -/
def Obligations.GetresultIsTransparent : Prop :=
  (∀ (xs ys : List HostAction) (w : CommandWord) (s m : State), decode w = .instr .getresult →
    (∀ act ∈ ys, act ≠ .reset) → runActions xs s = .next m → m.mode = .active →
    match runActions (xs ++ ys) s, runActions (xs ++ .command w :: ys) s with
    | .next t, .next u => ∃ later, t.responses = m.responses ++ later ∧
        u = { t with responses := m.responses ++ m.register :: later }
    | .fault f, .fault f' => f = f'
    | .refused r, .refused r' => r = r'
    | _, _ => False) ∧
  (∀ (seed poly : Word) (s s' : State), ∃ t t', exec (.init seed poly) s = .next t ∧
    exec (.init seed poly) s' = .next t' ∧
    t.register = t'.register ∧ t.polynomial = t'.polynomial ∧ t.mode = t'.mode)

/-! ### Reset, the host and runs -/

/-- R24, R116: the state after power-on: Uninitialized, no byte readable, nothing issued, answered or
recorded. That `register`
and `polynomial` hold the open parameters is the model's form of "unspecified" (log entries 1 to 4). -/
def Obligations.PowerOnState : Prop :=
  State.reset.mode = .uninitialized ∧
  State.reset.register = Config.resetRegister 0 ∧ State.reset.polynomial = Config.resetPolynomial 0 ∧
  (∀ a, State.reset.mem.read a = none) ∧ State.reset.responses = [] ∧ State.reset.inputs = [] ∧
  State.reset.faults = []

/-- R115, R116: a reset leaves the block Uninitialized with unspecified registers, and does not affect the data
memory. That RSP's past, the host's pending actions and the recorded faults stay is the model's choice (log entry 13),
and so is who asserts a reset and when (log entry 21); the values are those of log entries 1 and 2. -/
def Obligations.ResetEvent : Prop :=
  ∀ (s : State) (rest : List HostAction), s.inputs = .reset :: rest →
    step s = .next { s with
      register := Config.resetRegister (s.resets + 1), polynomial := Config.resetPolynomial (s.resets + 1),
      mode := .uninitialized, resets := s.resets + 1, inputs := rest }

/-- R30, R37, R42, R126, R104: the host's other actions. A byte stored changes `Mem` at its address and `Readable`
nowhere; an address made readable or unreadable changes `Readable` at that address and no byte that stands in memory;
each leaves the block's own state as it was. Overlapped commands are refused. That `Readable` can change in a run is log
entry 12, that overlapped commands can be written down at all is log entry 9. -/
def Obligations.HostActionsOnMemory : Prop :=
  (∀ (s : State) (addr : Word) (d : Byte), ∃ t, perform (.write addr d) s = .next t ∧
    t.mem.readable = s.mem.readable ∧
    (∀ a, memoryLookup a t.mem.cells = if a = addr.toNat then some d else memoryLookup a s.mem.cells) ∧
    (∀ a, t.mem.read a = if a = addr.toNat ∧ a ∈ s.mem.readable then some d else s.mem.read a) ∧
    t = { s with mem := t.mem }) ∧
  (∀ (s : State) (addr : Word), ∃ t, perform (.expose addr) s = .next t ∧
    (∀ a, a ∈ t.mem.readable ↔ a = addr.toNat ∨ a ∈ s.mem.readable) ∧
    (∀ a d, memoryLookup a s.mem.cells = some d → memoryLookup a t.mem.cells = some d) ∧
    (t.mem.read addr.toNat).isSome ∧ (∀ a, a ≠ addr.toNat → t.mem.read a = s.mem.read a) ∧
    t = { s with mem := t.mem }) ∧
  (∀ (s : State) (addr : Word), ∃ t, perform (.release addr) s = .next t ∧
    (∀ a, a ∈ t.mem.readable ↔ a ≠ addr.toNat ∧ a ∈ s.mem.readable) ∧ t.mem.cells = s.mem.cells ∧
    (∀ a, t.mem.read a = if a = addr.toNat then none else s.mem.read a) ∧
    t = { s with mem := t.mem }) ∧
  (∀ (s : State) (w w' : CommandWord), perform (.overlap w w') s = .refused .concurrentIssue)

/-- R31: `MemRead` gives the byte that stands at a readable address below 65536; at any other address the feed that
reads it stops with `BoundsViolation` at that address. -/
def Obligations.ReadPrimitive : Prop :=
  ∀ (s : State) (addr : Nat), s.mem.wf = true →
    (addr < 65536 ∧ addr ∈ s.mem.readable →
      (∃ d, (addr, d) ∈ s.mem.cells) ∧ ∀ d, (addr, d) ∈ s.mem.cells → s.mem.read addr = some d) ∧
    (¬ (addr < 65536 ∧ addr ∈ s.mem.readable) →
      s.mem.read addr = none ∧ ∀ rest, feedRange (addr :: rest) s = .fault (.boundsViolation addr))

/-- R29, R31, R32: no address at or above 65536 is ever readable, so a range does not wrap. -/
def Obligations.NoAddressPastTheSpace : Prop :=
  (∀ (m : Memory) (a : Nat), 65536 ≤ a → m.read a = none) ∧
  (∀ (base : Word) (len : Byte) (s : State), 65536 < base.toNat + len.toNat →
    (∀ t, exec (.feedfwd base len) s ≠ .next t) ∧ ∀ t, exec (.feedrev base len) s ≠ .next t)

/-- R126: a run of the machine over pending actions is those actions carried out in turn, and with nothing pending
nothing changes, however many steps follow (log entry 5). -/
def Obligations.RunIsActionsInTurn : Prop :=
  ∀ (acts : List HostAction) (s : State), s.inputs = [] →
    core.run acts.length { s with inputs := acts } = runActions acts s ∧
    ∀ k, core.run k s = .next s

/-- Every step keeps the data memory in its canonical form: the cells and the readable addresses strictly rising, all in
the address space, with a byte at every readable address (R29, R30; the model's form of `Mem` and `Readable`, log
entry 3). -/
def Obligations.StepKeepsMemoryCanonical : Prop :=
  ∀ s t : State, s.mem.wf = true → step s = .next t → t.mem.wf = true

/-- The data memory is in its canonical form after power-on (log entry 3). -/
def Obligations.PowerOnMemoryCanonical : Prop :=
  State.reset.mem.wf = true

/-- R26 with R82: where the host has met its duties towards an operation, the operation completes with the effect the
spec gives it, whatever is pending, answered, recorded or reset before. -/
def Obligations.EveryOperationCompletes : Prop :=
  ∀ (i : Instr) (s : State), dutiesMet s i = true →
    exec i s = .next (match i with
      | .init seed poly => { s with register := seed, polynomial := poly, mode := .active }
      | .feedbit t => { s with register := stepBit s.register s.polynomial t }
      | .feedfwd base len => { s with register := fwd s.register s.polynomial (rangeBytes s.mem base len) }
      | .feedrev base len => { s with register := rev s.register s.polynomial (rangeBytes s.mem base len) }
      | .getresult => { s with responses := s.responses ++ [s.register] })

/-! ### Use before INIT, and runs that go on past a fault -/

/-- R103: an operation issued in Uninitialized mode is carried out exactly as in Active mode on the held values, the
mode staying Uninitialized, and the fault is recorded (log entry 6). -/
def Obligations.UseBeforeInitIsCarriedOut : Prop :=
  ∀ (i : Instr) (s : State), s.mode = .uninitialized → (∀ seed poly, i ≠ .init seed poly) →
    (∀ t, exec i { s with mode := .active } = .next t →
      exec i s = .next { t with
        mode := .uninitialized, faults := t.faults ++ [.uninitializedUse (operationOf i)] }) ∧
    (∀ a, exec i { s with mode := .active } = .fault (.boundsViolation a) →
      exec i s = .fault (.boundsViolationBeforeInit (operationOf i) a))

/-- R102 (log entry 14): where a run goes on past a feed that met an unreadable byte, everything but `register` is as
before the operation and the fault is recorded; nothing is said of `register`. -/
def Obligations.BoundsViolationLeavesRestInExtension : Prop :=
  ∀ (i : Instr) (s : State) (f : Fault), exec i s = .fault f →
    ∃ t, execOn i s = .next t ∧ t = { s with register := t.register, faults := s.faults ++ [reported f] }

/-- R109, R110: INIT brings the block to a fully defined state from any state, and the recorded faults stay; no step
ever clears or changes a recorded fault, in the machine and in a run that goes on past a `BoundsViolation` (log entry
14). -/
def Obligations.RecordedFaultsStay : Prop :=
  (∀ (seed poly : Word) (s : State), ∃ t, exec (.init seed poly) s = .next t ∧
    t.register = seed ∧ t.polynomial = poly ∧ t.mode = .active ∧ t.faults = s.faults) ∧
  (∀ s t : State, step s = .next t → ∃ new, t.faults = s.faults ++ new) ∧
  (∀ s t : State, stepOn s = .next t → ∃ new, t.faults = s.faults ++ new)

/-- R110 (log entry 14): the extension takes the machine's steps where there is one, and where the machine stops at an
unreadable byte it goes on with the fault recorded; it refuses what the machine refuses. -/
def Obligations.ExtensionAgreesWithMachine : Prop :=
  ∀ s : State,
    (∀ t, step s = .next t → stepOn s = .next t) ∧
    (∀ f, step s = .fault f → ∃ t, stepOn s = .next t ∧ t.faults = s.faults ++ [reported f]) ∧
    (∀ r, step s = .refused r → stepOn s = .refused r)
end

