-- ==== Sys2Proof/Laws/Crc.lean ====
section
/-! SUPPORT. The CRC functions: one lemma that says what a bit step is, and how the sequence functions unfold. -/

namespace Sys2Proof.Machine

/-- A bit step shifts, and XORs the polynomial in when the feedback is 1. -/
theorem stepBit_eq (r p : Word) (t : Byte) :
    stepBit r p t = if topBit r ^^ inputBit t then r <<< 1 ^^^ p else r <<< 1 := by
  have hshift : (r ^^^ 0x8000#16) <<< 1 = r <<< 1 := by
    apply BitVec.eq_of_getLsbD_eq
    intro j hj
    interval_cases j <;> simp
  have htop : topBit (r ^^^ 0x8000#16) = !topBit r := by simp [topBit]
  cases ht : inputBit t
  · simp [stepBit, shl16, ht]
  · cases hr : topBit r <;> simp [stepBit, shl16, ht, htop, hr, hshift]

@[simp] theorem stepBits_zero (p r : Word) (sh : Byte) : stepBits p 0 r sh = r := rfl

@[simp] theorem stepBits_succ (p r : Word) (n : Nat) (sh : Byte) :
    stepBits p (n + 1) r sh = stepBits p n (stepBit r p sh) (shl8 sh) := rfl

@[simp] theorem fwd_nil (r p : Word) : fwd r p [] = r := rfl

@[simp] theorem fwd_cons (r p : Word) (d : Byte) (ds : List Byte) :
    fwd r p (d :: ds) = fwd (stepByte r p d) p ds := rfl

@[simp] theorem feedBits_nil (r p : Word) : feedBits r p [] = r := rfl

@[simp] theorem feedBits_cons (r p : Word) (t : Byte) (ts : List Byte) :
    feedBits r p (t :: ts) = feedBits (stepBit r p t) p ts := rfl

theorem feedBits_append (r p : Word) (ts us : List Byte) :
    feedBits r p (ts ++ us) = feedBits (feedBits r p ts) p us := by
  induction ts generalizing r with
  | nil => rfl
  | cons t ts ih => exact ih _

/-- A byte step is the bit steps over the successively shifted byte. -/
theorem stepByte_eq_feedBits (r p : Word) (d : Byte) :
    stepByte r p d = feedBits r p ((List.range 8).map fun k => d <<< k) := by
  have hs : ∀ k, shl8 (d <<< k) = d <<< (k + 1) := fun k => (BitVec.shiftLeft_add d k 1).symm
  have h0 : shl8 d = d <<< 1 := rfl
  simp [stepByte, List.range_succ, hs, h0]

/-- What the byte at each later position becomes does not depend on the byte before. -/
theorem rev_concat (r p : Word) (ds : List Byte) (d : Byte) :
    rev r p (ds ++ [d]) = rev (stepByte r p d) p ds := by
  simp [rev]

end Sys2Proof.Machine
end

