-- ==== Sys2Proof/Laws/Memory.lean ====
section
/-! SUPPORT. The data memory: what a read gives after the host's store and after an address became readable or
unreadable, and that all three keep the canonical form. -/

namespace Sys2Proof.Machine

@[simp] theorem memoryLookup_nil (addr : Nat) : memoryLookup addr [] = none := rfl

@[simp] theorem memoryLookup_cons (addr a : Nat) (d : Byte) (rest : List Host.Cell) :
    memoryLookup addr ((a, d) :: rest) = if a = addr then some d else memoryLookup addr rest := rfl

@[simp] theorem memoryFrom_nil (lo : Nat) : memoryFrom lo [] = true := rfl

@[simp] theorem memoryFrom_cons (lo a : Nat) (d : Byte) (rest : List Host.Cell) :
    memoryFrom lo ((a, d) :: rest) = true ↔
      lo ≤ a ∧ a < Config.addrCount ∧ memoryFrom (a + 1) rest = true := by
  simp [memoryFrom, and_assoc]

/-- A lower start is no further demand. -/
theorem memoryFrom_mono {lo lo' : Nat} {m : List Host.Cell} (h : memoryFrom lo m = true) (hle : lo' ≤ lo) :
    memoryFrom lo' m = true := by
  cases m with
  | nil => rfl
  | cons c rest =>
    obtain ⟨a, d⟩ := c
    rw [memoryFrom_cons] at h ⊢
    exact ⟨hle.trans h.1, h.2⟩

/-- No address below the start is listed. -/
theorem memoryLookup_of_lt {lo addr : Nat} {m : List Host.Cell} (h : memoryFrom lo m = true) (hlt : addr < lo) :
    memoryLookup addr m = none := by
  induction m generalizing lo with
  | nil => rfl
  | cons c rest ih =>
    obtain ⟨a, d⟩ := c
    rw [memoryFrom_cons] at h
    have hne : a ≠ addr := by omega
    simp [hne, ih h.2.2 (by omega)]

theorem memoryLookup_insert (addr b : Nat) (d : Byte) (m : List Host.Cell) :
    memoryLookup b (memoryInsert addr d m) = if b = addr then some d else memoryLookup b m := by
  rcases eq_or_ne b addr with rfl | hne
  · induction m with
    | nil => simp [memoryInsert]
    | cons c rest ih =>
      obtain ⟨a, e⟩ := c
      simp only [memoryInsert]
      split
      · simp
      · split
        · simp
        · next hba => simp [Ne.symm hba, ih]
  · induction m with
    | nil => simp [memoryInsert, hne, hne.symm]
    | cons c rest ih =>
      obtain ⟨a, e⟩ := c
      simp only [memoryInsert]
      split
      · simp [hne.symm]
      · split
        · next hba => simp [hne.symm, ← hba]
        · simp [ih, hne]

theorem memoryFrom_insert {lo addr : Nat} {d : Byte} {m : List Host.Cell} (h : memoryFrom lo m = true)
    (hlo : lo ≤ addr) (hlt : addr < Config.addrCount) : memoryFrom lo (memoryInsert addr d m) = true := by
  induction m generalizing lo with
  | nil => simp [memoryInsert, memoryFrom, hlo, hlt]
  | cons c rest ih =>
    obtain ⟨a, e⟩ := c
    rw [memoryFrom_cons] at h
    simp only [memoryInsert]
    split
    · exact (memoryFrom_cons _ _ _ _).2 ⟨hlo, hlt, (memoryFrom_cons _ _ _ _).2 ⟨by omega, h.2⟩⟩
    · split
      · subst_vars
        exact (memoryFrom_cons _ _ _ _).2 h
      · exact (memoryFrom_cons _ _ _ _).2 ⟨h.1, h.2.1, ih h.2.2 (by omega)⟩

@[simp] theorem addressesFrom_nil (lo : Nat) : addressesFrom lo [] = true := rfl

@[simp] theorem addressesFrom_cons (lo a : Nat) (rest : List Nat) :
    addressesFrom lo (a :: rest) = true ↔
      lo ≤ a ∧ a < Config.addrCount ∧ addressesFrom (a + 1) rest = true := by
  simp [addressesFrom, and_assoc]

theorem addressesFrom_mono {lo lo' : Nat} {l : List Nat} (h : addressesFrom lo l = true) (hle : lo' ≤ lo) :
    addressesFrom lo' l = true := by
  cases l with
  | nil => rfl
  | cons a rest =>
    rw [addressesFrom_cons] at h ⊢
    exact ⟨hle.trans h.1, h.2⟩

/-- Every address of a canonical list lies in the address space. -/
theorem lt_of_mem_addresses {lo a : Nat} {l : List Nat} (h : addressesFrom lo l = true) (ha : a ∈ l) :
    a < Config.addrCount := by
  induction l generalizing lo with
  | nil => simp at ha
  | cons b rest ih =>
    rw [addressesFrom_cons] at h
    rcases List.mem_cons.1 ha with rfl | ha
    · exact h.2.1
    · exact ih h.2.2 ha

@[simp] theorem mem_addressInsert (addr a : Nat) (l : List Nat) :
    a ∈ addressInsert addr l ↔ a = addr ∨ a ∈ l := by
  induction l with
  | nil => simp [addressInsert]
  | cons b rest ih =>
    simp only [addressInsert]
    split
    · simp
    · split
      · next h => simp [h]
      · simp [ih, or_left_comm]

theorem addressesFrom_insert {lo addr : Nat} {l : List Nat} (h : addressesFrom lo l = true)
    (hlo : lo ≤ addr) (hlt : addr < Config.addrCount) : addressesFrom lo (addressInsert addr l) = true := by
  induction l generalizing lo with
  | nil => simp [addressInsert, addressesFrom, hlo, hlt]
  | cons b rest ih =>
    rw [addressesFrom_cons] at h
    simp only [addressInsert]
    split
    · exact (addressesFrom_cons _ _ _).2 ⟨hlo, hlt, (addressesFrom_cons _ _ _).2 ⟨by omega, h.2⟩⟩
    · split
      · exact (addressesFrom_cons _ _ _).2 h
      · exact (addressesFrom_cons _ _ _).2 ⟨h.1, h.2.1, ih h.2.2 (by omega)⟩

theorem addressesFrom_filter {lo : Nat} {l : List Nat} (q : Nat → Bool) (h : addressesFrom lo l = true) :
    addressesFrom lo (l.filter q) = true := by
  induction l generalizing lo with
  | nil => rfl
  | cons b rest ih =>
    rw [addressesFrom_cons] at h
    rw [List.filter_cons]
    split
    · exact (addressesFrom_cons _ _ _).2 ⟨h.1, h.2.1, ih h.2.2⟩
    · exact addressesFrom_mono (ih h.2.2) (by omega)

/-- What `Memory.wf` says. -/
theorem Memory.wf_iff (m : Memory) :
    m.wf = true ↔ memoryFrom 0 m.cells = true ∧ addressesFrom 0 m.readable = true ∧
      ∀ a ∈ m.readable, (memoryLookup a m.cells).isSome = true := by
  simp [Memory.wf, and_assoc]

/-- The byte at an address after it was given one: the one that stood there, or the platform's. -/
theorem memoryLookup_withByteAt (addr b : Nat) (cells : List Host.Cell) :
    memoryLookup b (withByteAt addr cells) =
      if b = addr then some ((memoryLookup addr cells).getD (Config.platformByte addr)) else memoryLookup b cells := by
  unfold withByteAt
  cases h : memoryLookup addr cells with
  | none => simp [memoryLookup_insert]
  | some d => by_cases hb : b = addr <;> simp [hb, h]

theorem memoryFrom_withByteAt {addr : Nat} {cells : List Host.Cell} (h : memoryFrom 0 cells = true)
    (hlt : addr < Config.addrCount) : memoryFrom 0 (withByteAt addr cells) = true := by
  unfold withByteAt
  cases memoryLookup addr cells with
  | none => exact memoryFrom_insert h (Nat.zero_le _) hlt
  | some d => exact h

@[simp] theorem Memory.write_readable (m : Memory) (addr : Word) (d : Byte) :
    (m.write addr d).readable = m.readable := rfl

@[simp] theorem Memory.write_cells (m : Memory) (addr : Word) (d : Byte) :
    (m.write addr d).cells = memoryInsert addr.toNat d m.cells := rfl

@[simp] theorem Memory.expose_readable (m : Memory) (addr : Word) :
    (m.expose addr).readable = addressInsert addr.toNat m.readable := rfl

@[simp] theorem Memory.expose_cells (m : Memory) (addr : Word) :
    (m.expose addr).cells = withByteAt addr.toNat m.cells := rfl

@[simp] theorem Memory.release_readable (m : Memory) (addr : Word) :
    (m.release addr).readable = m.readable.filter fun a => a ≠ addr.toNat := rfl

@[simp] theorem Memory.release_cells (m : Memory) (addr : Word) : (m.release addr).cells = m.cells := rfl

/-- A read of a readable address gives its byte (`20_memory.md` R31). -/
theorem Memory.read_of_readable {m : Memory} {a : Nat} (hlt : a < Config.addrCount) (ha : a ∈ m.readable) :
    m.read a = memoryLookup a m.cells := by
  simp [Memory.read, show a < 65536 from hlt, ha]

/-- A read of an unreadable address gives nothing (`20_memory.md` R31). -/
theorem Memory.read_of_not_readable {m : Memory} {a : Nat} (ha : a ∉ m.readable) : m.read a = none := by
  simp [Memory.read, ha]

/-- A read above the address space gives nothing (`20_memory.md` R31). -/
theorem Memory.read_of_ge (m : Memory) {a : Nat} (h : Config.addrCount ≤ a) : m.read a = none := by
  simp [Memory.read, Nat.not_lt.2 h]

theorem Memory.lt_of_read {m : Memory} {a : Nat} {d : Byte} (h : m.read a = some d) : a < Config.addrCount := by
  by_contra hge
  simp [Memory.read, hge] at h

/-- In a canonical memory an address reads as a byte exactly when it is readable. -/
theorem Memory.isSome_read {m : Memory} (hm : m.wf = true) (a : Nat) :
    (m.read a).isSome = true ↔ a ∈ m.readable := by
  obtain ⟨-, hr, hb⟩ := (Memory.wf_iff m).1 hm
  constructor
  · intro h
    by_contra hn
    simp [Memory.read_of_not_readable hn] at h
  · intro ha
    rw [Memory.read_of_readable (lt_of_mem_addresses hr ha) ha]
    exact hb a ha

/-- A read after the host's store (`20_memory.md` R42 b). -/
theorem Memory.read_write (m : Memory) (addr : Word) (d : Byte) (a : Nat) :
    (m.write addr d).read a =
      if a = addr.toNat ∧ a ∈ m.readable then some d else m.read a := by
  have hlt : addr.toNat < 65536 := addr.isLt
  simp only [Memory.read, Memory.write, memoryLookup_insert]
  by_cases h : a = addr.toNat
  · subst h
    by_cases hr : addr.toNat ∈ m.readable <;> simp [hlt, hr]
  · simp [h]

/-- A read after an address became readable. -/
theorem Memory.read_expose (m : Memory) (addr : Word) (a : Nat) :
    (m.expose addr).read a =
      if a = addr.toNat then some ((memoryLookup a m.cells).getD (Config.platformByte a)) else m.read a := by
  have hlt : addr.toNat < 65536 := addr.isLt
  simp only [Memory.read, Memory.expose, memoryLookup_withByteAt, mem_addressInsert]
  by_cases h : a = addr.toNat
  · subst h; simp [hlt]
  · simp [h]

/-- A read after an address became unreadable. -/
theorem Memory.read_release (m : Memory) (addr : Word) (a : Nat) :
    (m.release addr).read a = if a = addr.toNat then none else m.read a := by
  by_cases h : a = addr.toNat <;> simp [Memory.read, Memory.release, h]

/-- The host's store keeps the canonical form. -/
theorem Memory.wf_write {m : Memory} (h : m.wf = true) (addr : Word) (d : Byte) : (m.write addr d).wf = true := by
  rw [Memory.wf_iff] at h ⊢
  refine ⟨memoryFrom_insert h.1 (Nat.zero_le _) addr.isLt, h.2.1, fun a ha => ?_⟩
  rw [Memory.write_cells, memoryLookup_insert]
  split
  · rfl
  · exact h.2.2 a ha

/-- Making an address readable keeps the canonical form. -/
theorem Memory.wf_expose {m : Memory} (h : m.wf = true) (addr : Word) : (m.expose addr).wf = true := by
  rw [Memory.wf_iff] at h ⊢
  refine ⟨memoryFrom_withByteAt h.1 addr.isLt, addressesFrom_insert h.2.1 (Nat.zero_le _) addr.isLt, fun a ha => ?_⟩
  rw [Memory.expose_cells, memoryLookup_withByteAt]
  split
  · rfl
  · next hne => exact h.2.2 a (((mem_addressInsert _ _ _).1 ha).resolve_left hne)

/-- Making an address unreadable keeps the canonical form. -/
theorem Memory.wf_release {m : Memory} (h : m.wf = true) (addr : Word) : (m.release addr).wf = true := by
  rw [Memory.wf_iff] at h ⊢
  exact ⟨h.1, addressesFrom_filter _ h.2.1, fun a ha => h.2.2 a (List.mem_of_mem_filter ha)⟩

/-- The memory after power-on has the canonical form. -/
theorem reset_mem_wf : State.reset.mem.wf = true := rfl

end Sys2Proof.Machine
end

