-- ==== Sys2Proof/Laws/State.lean ====
section
/-! SUPPORT. What each update of the state does to each field. -/

namespace Sys2Proof.Machine

@[simp] theorem State.setRegister_register (s : State) (r : Word) : (s.setRegister r).register = r := rfl
@[simp] theorem State.setRegister_polynomial (s : State) (r : Word) : (s.setRegister r).polynomial = s.polynomial := rfl
@[simp] theorem State.setRegister_mode (s : State) (r : Word) : (s.setRegister r).mode = s.mode := rfl
@[simp] theorem State.setRegister_mem (s : State) (r : Word) : (s.setRegister r).mem = s.mem := rfl
@[simp] theorem State.setRegister_responses (s : State) (r : Word) : (s.setRegister r).responses = s.responses := rfl
@[simp] theorem State.setRegister_inputs (s : State) (r : Word) : (s.setRegister r).inputs = s.inputs := rfl
@[simp] theorem State.setRegister_faults (s : State) (r : Word) : (s.setRegister r).faults = s.faults := rfl
@[simp] theorem State.setRegister_resets (s : State) (r : Word) : (s.setRegister r).resets = s.resets := rfl

@[simp] theorem State.loadContext_register (s : State) (seed poly : Word) : (s.loadContext seed poly).register = seed := rfl
@[simp] theorem State.loadContext_polynomial (s : State) (seed poly : Word) : (s.loadContext seed poly).polynomial = poly := rfl
@[simp] theorem State.loadContext_mode (s : State) (seed poly : Word) : (s.loadContext seed poly).mode = .active := rfl
@[simp] theorem State.loadContext_mem (s : State) (seed poly : Word) : (s.loadContext seed poly).mem = s.mem := rfl
@[simp] theorem State.loadContext_responses (s : State) (seed poly : Word) : (s.loadContext seed poly).responses = s.responses := rfl
@[simp] theorem State.loadContext_inputs (s : State) (seed poly : Word) : (s.loadContext seed poly).inputs = s.inputs := rfl
@[simp] theorem State.loadContext_faults (s : State) (seed poly : Word) :
    (s.loadContext seed poly).faults = s.faults := rfl
@[simp] theorem State.loadContext_resets (s : State) (seed poly : Word) : (s.loadContext seed poly).resets = s.resets := rfl

@[simp] theorem State.setMode_register (s : State) (m : Mode) : (s.setMode m).register = s.register := rfl
@[simp] theorem State.setMode_polynomial (s : State) (m : Mode) : (s.setMode m).polynomial = s.polynomial := rfl
@[simp] theorem State.setMode_mode (s : State) (m : Mode) : (s.setMode m).mode = m := rfl
@[simp] theorem State.setMode_mem (s : State) (m : Mode) : (s.setMode m).mem = s.mem := rfl
@[simp] theorem State.setMode_responses (s : State) (m : Mode) : (s.setMode m).responses = s.responses := rfl
@[simp] theorem State.setMode_inputs (s : State) (m : Mode) : (s.setMode m).inputs = s.inputs := rfl
@[simp] theorem State.setMode_faults (s : State) (m : Mode) : (s.setMode m).faults = s.faults := rfl
@[simp] theorem State.setMode_resets (s : State) (m : Mode) : (s.setMode m).resets = s.resets := rfl

@[simp] theorem State.setMem_register (s : State) (m : Memory) : (s.setMem m).register = s.register := rfl
@[simp] theorem State.setMem_polynomial (s : State) (m : Memory) : (s.setMem m).polynomial = s.polynomial := rfl
@[simp] theorem State.setMem_mode (s : State) (m : Memory) : (s.setMem m).mode = s.mode := rfl
@[simp] theorem State.setMem_mem (s : State) (m : Memory) : (s.setMem m).mem = m := rfl
@[simp] theorem State.setMem_responses (s : State) (m : Memory) : (s.setMem m).responses = s.responses := rfl
@[simp] theorem State.setMem_inputs (s : State) (m : Memory) : (s.setMem m).inputs = s.inputs := rfl
@[simp] theorem State.setMem_faults (s : State) (m : Memory) : (s.setMem m).faults = s.faults := rfl
@[simp] theorem State.setMem_resets (s : State) (m : Memory) : (s.setMem m).resets = s.resets := rfl

@[simp] theorem State.respond_register (s : State) (v : Word) : (s.respond v).register = s.register := rfl
@[simp] theorem State.respond_polynomial (s : State) (v : Word) : (s.respond v).polynomial = s.polynomial := rfl
@[simp] theorem State.respond_mode (s : State) (v : Word) : (s.respond v).mode = s.mode := rfl
@[simp] theorem State.respond_mem (s : State) (v : Word) : (s.respond v).mem = s.mem := rfl
@[simp] theorem State.respond_responses (s : State) (v : Word) : (s.respond v).responses = s.responses ++ [v] := rfl
@[simp] theorem State.respond_inputs (s : State) (v : Word) : (s.respond v).inputs = s.inputs := rfl
@[simp] theorem State.respond_faults (s : State) (v : Word) : (s.respond v).faults = s.faults := rfl
@[simp] theorem State.respond_resets (s : State) (v : Word) : (s.respond v).resets = s.resets := rfl

@[simp] theorem State.setInputs_register (s : State) (as : List HostAction) : (s.setInputs as).register = s.register := rfl
@[simp] theorem State.setInputs_polynomial (s : State) (as : List HostAction) : (s.setInputs as).polynomial = s.polynomial := rfl
@[simp] theorem State.setInputs_mode (s : State) (as : List HostAction) : (s.setInputs as).mode = s.mode := rfl
@[simp] theorem State.setInputs_mem (s : State) (as : List HostAction) : (s.setInputs as).mem = s.mem := rfl
@[simp] theorem State.setInputs_responses (s : State) (as : List HostAction) : (s.setInputs as).responses = s.responses := rfl
@[simp] theorem State.setInputs_inputs (s : State) (as : List HostAction) : (s.setInputs as).inputs = as := rfl
@[simp] theorem State.setInputs_faults (s : State) (as : List HostAction) : (s.setInputs as).faults = s.faults := rfl
@[simp] theorem State.setInputs_resets (s : State) (as : List HostAction) : (s.setInputs as).resets = s.resets := rfl

@[simp] theorem State.resetBlock_register (s : State) : (s.resetBlock).register = Config.resetRegister (s.resets + 1) := rfl
@[simp] theorem State.resetBlock_polynomial (s : State) : (s.resetBlock).polynomial = Config.resetPolynomial (s.resets + 1) := rfl
@[simp] theorem State.resetBlock_mode (s : State) : (s.resetBlock).mode = .uninitialized := rfl
@[simp] theorem State.resetBlock_mem (s : State) : (s.resetBlock).mem = s.mem := rfl
@[simp] theorem State.resetBlock_responses (s : State) : (s.resetBlock).responses = s.responses := rfl
@[simp] theorem State.resetBlock_inputs (s : State) : (s.resetBlock).inputs = s.inputs := rfl
@[simp] theorem State.resetBlock_faults (s : State) : (s.resetBlock).faults = s.faults := rfl
@[simp] theorem State.resetBlock_resets (s : State) : (s.resetBlock).resets = s.resets + 1 := rfl

@[simp] theorem State.record_register (s : State) (x : FaultRecord) : (s.record x).register = s.register := rfl
@[simp] theorem State.record_polynomial (s : State) (x : FaultRecord) : (s.record x).polynomial = s.polynomial := rfl
@[simp] theorem State.record_mode (s : State) (x : FaultRecord) : (s.record x).mode = s.mode := rfl
@[simp] theorem State.record_mem (s : State) (x : FaultRecord) : (s.record x).mem = s.mem := rfl
@[simp] theorem State.record_responses (s : State) (x : FaultRecord) : (s.record x).responses = s.responses := rfl
@[simp] theorem State.record_inputs (s : State) (x : FaultRecord) : (s.record x).inputs = s.inputs := rfl
@[simp] theorem State.record_resets (s : State) (x : FaultRecord) : (s.record x).resets = s.resets := rfl
@[simp] theorem State.record_faults (s : State) (x : FaultRecord) : (s.record x).faults = s.faults ++ [x] := rfl

end Sys2Proof.Machine
end

