-- ==== Sys2Proof/Laws/Ops.lean ====
section
/-! SUPPORT. What the operations the instructions share can do. -/

namespace Sys2Proof.Machine

@[simp] theorem checkMode_active {s : State} (op : Operation) (o : Host.Outcome State Fault Refusal)
    (h : s.mode = .active) : checkMode op s o = o := by
  simp [checkMode, h]

@[simp] theorem checkMode_uninitialized {s : State} (op : Operation) (o : Host.Outcome State Fault Refusal)
    (h : s.mode = .uninitialized) : checkMode op s o = raiseUninitializedUse op o := by
  simp [checkMode, h]

@[simp] theorem raiseUninitializedUse_next (op : Operation) (t : State) :
    raiseUninitializedUse op (.next t) = .next (t.record (.uninitializedUse op)) := rfl

@[simp] theorem raiseUninitializedUse_boundsViolation (op : Operation) (a : Nat) :
    raiseUninitializedUse op (.fault (.boundsViolation a)) = .fault (.boundsViolationBeforeInit op a) := rfl

/-- The mode check passes a next state on, with `UninitializedUse` recorded in Uninitialized mode. -/
theorem checkMode_next (op : Operation) (s t : State) :
    checkMode op s (.next t) = .next { t with faults := t.faults ++ usesRecorded op s } := by
  cases h : s.mode <;> simp [h, usesRecorded, State.record]

/-- Feeding readable bytes is `fwd` over them. -/
theorem feedBytes_ok {m : Memory} {addrs : List Nat} {ds : List Byte}
    (h : addrs.map m.read = ds.map some) (p r : Word) : feedBytes m p addrs r = .ok (fwd r p ds) := by
  induction addrs generalizing ds r with
  | nil =>
    cases ds with
    | nil => rfl
    | cons d ds => simp at h
  | cons a rest ih =>
    cases ds with
    | nil => simp at h
    | cons d ds =>
      simp only [List.map_cons, List.cons.injEq] at h
      simp [feedBytes, h.1, ih h.2]

/-- A feed stops at the first unreadable address. -/
theorem feedBytes_stop {m : Memory} {before after : List Nat} {a : Nat}
    (hb : ∀ b ∈ before, (m.read b).isSome = true) (ha : m.read a = none) (p r : Word) :
    feedBytes m p (before ++ a :: after) r = .error a := by
  induction before generalizing r with
  | nil => simp [feedBytes, ha]
  | cons b rest ih =>
    obtain ⟨d, hd⟩ := Option.isSome_iff_exists.1 (hb b (by simp))
    simp [feedBytes, hd, ih fun c hc => hb c (by simp [hc])]

/-- What a feed can do: feed every byte, all being readable, or stop at the first that is not. -/
theorem feedBytes_cases (m : Memory) (p : Word) (addrs : List Nat) (r : Word) :
    (∃ ds, addrs.map m.read = ds.map some ∧ feedBytes m p addrs r = .ok (fwd r p ds)) ∨
    (∃ before a after, addrs = before ++ a :: after ∧ (∀ b ∈ before, (m.read b).isSome = true) ∧
      m.read a = none ∧ feedBytes m p addrs r = .error a) := by
  induction addrs generalizing r with
  | nil => exact .inl ⟨[], rfl, rfl⟩
  | cons a rest ih =>
    cases h : m.read a with
    | none => exact .inr ⟨[], a, rest, rfl, by simp, h, by simp [feedBytes, h]⟩
    | some d =>
      rcases ih (stepByte r p d) with ⟨ds, hds, he⟩ | ⟨before, b, after, heq, hb, hn, he⟩
      · exact .inl ⟨d :: ds, by simp [h, hds], by simp [feedBytes, h, he]⟩
      · refine .inr ⟨a :: before, b, after, by simp [heq], ?_, hn, by simp [feedBytes, h, he]⟩
        intro c hc
        rcases List.mem_cons.1 hc with rfl | hc
        · simp [h]
        · exact hb c hc

/-- A feed over two lists of addresses is the feed over the second after the feed over the first. -/
theorem feedBytes_append (m : Memory) (p : Word) (as bs : List Nat) (r : Word) :
    feedBytes m p (as ++ bs) r = (feedBytes m p as r).bind (feedBytes m p bs) := by
  induction as generalizing r with
  | nil => rfl
  | cons a rest ih =>
    cases h : m.read a with
    | none => simp [feedBytes, h]; rfl
    | some d => simp [feedBytes, h, ih]

/-- A feed depends on the bytes it reads only. -/
theorem feedBytes_congr {m m' : Memory} {addrs : List Nat} (h : ∀ a ∈ addrs, m.read a = m'.read a) (p r : Word) :
    feedBytes m p addrs r = feedBytes m' p addrs r := by
  induction addrs generalizing r with
  | nil => rfl
  | cons a rest ih =>
    have ha := h a (by simp)
    have hr := fun b hb => h b (List.mem_cons_of_mem a hb)
    cases hd : m'.read a <;> simp [feedBytes, ha, hd, ih hr]

/-- What a range feed can do: write `register`, or fault at an unreadable address of the range. -/
theorem feedRange_cases (addrs : List Nat) (s : State) :
    (∃ r, feedBytes s.mem s.polynomial addrs s.register = .ok r ∧ feedRange addrs s = .next (s.setRegister r)) ∨
    (∃ a, feedBytes s.mem s.polynomial addrs s.register = .error a ∧
      feedRange addrs s = .fault (.boundsViolation a)) := by
  cases h : feedBytes s.mem s.polynomial addrs s.register with
  | ok r => exact .inl ⟨r, rfl, by simp [feedRange, h]⟩
  | error a => exact .inr ⟨a, rfl, by simp [feedRange, h]⟩

@[simp] theorem length_ascending (base : Word) (length : Byte) : (ascending base length).length = length.toNat := by
  simp [ascending]

@[simp] theorem mem_ascending {base : Word} {length : Byte} {a : Nat} :
    a ∈ ascending base length ↔ ∃ i, i < length.toNat ∧ a = base.toNat + i := by
  simp [ascending, effectiveAddress, eq_comm]

@[simp] theorem mem_descending {base : Word} {length : Byte} {a : Nat} :
    a ∈ descending base length ↔ ∃ i, i < length.toNat ∧ a = base.toNat + i := by
  simp [descending]

end Sys2Proof.Machine
end

