-- ==== Sys2Proof/Laws/PerInstr.lean ====
section
/-! SUPPORT. Facts about every operation as syntax, one lemma per constructor. -/

namespace Sys2Proof.Laws.OpField

/-- The canonical encoding carries the operation's code in CW[35:32] (`30_encoding.md` R50, R51), and is a word the
decoder assigns (R57). -/
def Statement (i : Instr) : Prop :=
  CommandWord.op (encode i) = opcode i ∧ CommandWord.wellFormed (encode i) = true

/-- A word's `op` field is its number divided by 2^32 (R50); the assigned codes are 0 to 4. -/
theorem of_toNat {i : Instr} {op low : Nat} (hw : encode i = BitVec.ofNat 36 (op * 2 ^ 32 + low))
    (hlow : low < 2 ^ 32) (hop : op ≤ 4) (hi : opcode i = BitVec.ofNat 4 op) : Statement i := by
  have harith : (op * 2 ^ 32 + low) % 2 ^ 36 / 2 ^ 32 % 2 ^ 4 = op % 2 ^ 4 := by omega
  have hfield : BitVec.extractLsb' 32 4 (encode i) = opcode i := by
    apply BitVec.eq_of_toNat_eq
    rw [hw, hi, BitVec.extractLsb'_toNat, BitVec.toNat_ofNat, BitVec.toNat_ofNat, Nat.shiftRight_eq_div_pow]
    exact harith
  refine ⟨hfield, ?_⟩
  unfold CommandWord.wellFormed
  rw [hfield, hi, BitVec.toNat_ofNat, decide_eq_true_eq]
  omega

theorem init (seed poly : Word) : Statement (.init seed poly) :=
  of_toNat (op := 0) (low := seed.toNat * 2 ^ 16 + poly.toNat) (by simp [encode])
    (by have := seed.isLt; have := poly.isLt; omega) (by decide) rfl

theorem feedbit (t : Byte) : Statement (.feedbit t) :=
  of_toNat (op := 1) (low := t.toNat) (by simp [encode]) (by have := t.isLt; omega) (by decide) rfl

theorem feedfwd (base : Word) (length : Byte) : Statement (.feedfwd base length) :=
  of_toNat (op := 2) (low := base.toNat * 2 ^ 16 + length.toNat) (by simp [encode, Nat.add_assoc])
    (by have := base.isLt; have := length.isLt; omega) (by decide) rfl

theorem feedrev (base : Word) (length : Byte) : Statement (.feedrev base length) :=
  of_toNat (op := 3) (low := base.toNat * 2 ^ 16 + length.toNat) (by simp [encode, Nat.add_assoc])
    (by have := base.isLt; have := length.isLt; omega) (by decide) rfl

theorem getresult : Statement .getresult :=
  of_toNat (op := 4) (low := 0) (by simp [encode]) (by decide) (by decide) rfl

end Sys2Proof.Laws.OpField
end

