-- ==== Sys2Proof/Laws/Step.lean ====
section
/-! SUPPORT. What one operation and one step can do, said once. -/

namespace Sys2Proof.Machine

/-- What a feed over a range can do in either mode: write `register`, or stop at an unreadable byte. -/
theorem checkedFeed_cases (op : Operation) (addrs : List Nat) (s : State) :
    (∃ r, feedBytes s.mem s.polynomial addrs s.register = .ok r ∧
      checkMode op s (feedRange addrs s) =
        .next { s with register := r, faults := s.faults ++ usesRecorded op s }) ∨
    (∃ a, feedBytes s.mem s.polynomial addrs s.register = .error a ∧
      checkMode op s (feedRange addrs s) = .fault (match s.mode with
        | .uninitialized => .boundsViolationBeforeInit op a
        | .active => .boundsViolation a)) := by
  rcases feedRange_cases addrs s with ⟨r, hr, he⟩ | ⟨a, ha, he⟩
  · exact .inl ⟨r, hr, by rw [he, checkMode_next]; rfl⟩
  · exact .inr ⟨a, ha, by cases h : s.mode <;> simp [he, h]⟩

/-- What one operation can do when it has a next state. -/
theorem exec_next_cases {i : Instr} {s t : State} (h : exec i s = .next t) :
    (∃ seed poly, i = .init seed poly ∧ t = s.loadContext seed poly) ∨
    (∃ r op, t = { s with register := r, faults := s.faults ++ usesRecorded op s } ∧
      ((op = .feedbit ∧ ∃ b, i = .feedbit b) ∨ (op = .feedfwd ∧ ∃ base len, i = .feedfwd base len) ∨
        (op = .feedrev ∧ ∃ base len, i = .feedrev base len))) ∨
    (i = .getresult ∧ t = { s with responses := s.responses ++ [s.register],
                                   faults := s.faults ++ usesRecorded .getresult s }) := by
  cases i with
  | init seed poly =>
    simp only [exec, execInit, Host.Outcome.next.injEq] at h
    exact .inl ⟨seed, poly, rfl, h.symm⟩
  | feedbit b =>
    simp only [exec, execFeedbit, checkMode_next, Host.Outcome.next.injEq] at h
    exact .inr (.inl ⟨_, .feedbit, h.symm, .inl ⟨rfl, b, rfl⟩⟩)
  | feedfwd base len =>
    rcases checkedFeed_cases .feedfwd (ascending base len) s with ⟨r, -, hr⟩ | ⟨a, -, hr⟩ <;>
      simp only [exec, execFeedfwd, hr, Host.Outcome.next.injEq, reduceCtorEq] at h
    exact .inr (.inl ⟨r, .feedfwd, h.symm, .inr (.inl ⟨rfl, base, len, rfl⟩)⟩)
  | feedrev base len =>
    rcases checkedFeed_cases .feedrev (descending base len) s with ⟨r, -, hr⟩ | ⟨a, -, hr⟩ <;>
      simp only [exec, execFeedrev, hr, Host.Outcome.next.injEq, reduceCtorEq] at h
    exact .inr (.inl ⟨r, .feedrev, h.symm, .inr (.inr ⟨rfl, base, len, rfl⟩)⟩)
  | getresult =>
    simp only [exec, execGetresult, checkMode_next, Host.Outcome.next.injEq] at h
    exact .inr (.inr ⟨rfl, h.symm⟩)

/-- No operation is refused. -/
theorem exec_ne_refused (i : Instr) (s : State) (r : Refusal) : exec i s ≠ .refused r := by
  have feed : ∀ op addrs, checkMode op s (feedRange addrs s) ≠ .refused r := by
    intro op addrs h
    rcases checkedFeed_cases op addrs s with ⟨x, -, hx⟩ | ⟨a, -, ha⟩ <;> simp_all
  cases i with
  | init seed poly => simp [exec, execInit]
  | feedbit b => simp [exec, execFeedbit, checkMode_next]
  | feedfwd base len => exact feed _ _
  | feedrev base len => exact feed _ _
  | getresult => simp [exec, execGetresult, checkMode_next]

/-- What one action of the host can do when it has a next state. -/
theorem perform_next_cases {act : HostAction} {s t : State} (h : perform act s = .next t) :
    (∃ w i, act = .command w ∧ decode w = .instr i ∧ exec i s = .next t) ∨
    (∃ addr d, act = .write addr d ∧ t = s.setMem (s.mem.write addr d)) ∨
    (∃ addr, act = .expose addr ∧ t = s.setMem (s.mem.expose addr)) ∨
    (∃ addr, act = .release addr ∧ t = s.setMem (s.mem.release addr)) ∨
    (act = .reset ∧ t = s.resetBlock) := by
  cases act with
  | command w =>
    cases hd : decode w with
    | instr i => exact .inl ⟨w, i, rfl, hd, by simpa [perform, runCommand, hd] using h⟩
    | reserved op => simp [perform, runCommand, hd, refuseReserved] at h
  | write addr d => exact .inr (.inl ⟨addr, d, rfl, by simpa [perform, hostWrite] using h.symm⟩)
  | expose addr => exact .inr (.inr (.inl ⟨addr, rfl, by simpa [perform, hostExpose] using h.symm⟩))
  | release addr => exact .inr (.inr (.inr (.inl ⟨addr, rfl, by simpa [perform, hostRelease] using h.symm⟩)))
  | reset => exact .inr (.inr (.inr (.inr ⟨rfl, by simpa [perform, hostReset] using h.symm⟩)))
  | overlap first second => simp [perform, hostOverlap] at h

theorem step_of_nil {s : State} (h : s.inputs = []) : step s = .next s := by
  simp [step, fetch, h, idleStep]

theorem step_of_cons {s : State} {act : HostAction} {rest : List HostAction} (h : s.inputs = act :: rest) :
    step s = perform act (s.setInputs rest) := by
  simp [step, fetch, h]

/-- What a step can do when it has a next state: nothing pending and nothing changed, or the next action performed. -/
theorem step_next_cases {s t : State} (h : step s = .next t) :
    (s.inputs = [] ∧ t = s) ∨
    ∃ act rest, s.inputs = act :: rest ∧ perform act (s.setInputs rest) = .next t := by
  cases hi : s.inputs with
  | nil => exact .inl ⟨rfl, by simpa [step_of_nil hi] using h.symm⟩
  | cons act rest => exact .inr ⟨act, rest, rfl, by simpa [step_of_cons hi] using h⟩

@[simp] theorem withFetchWord_register (s : State) (nbits w : Nat) :
    (s.withFetchWord nbits w).register = s.register := rfl

@[simp] theorem withFetchWord_mode (s : State) (nbits w : Nat) : (s.withFetchWord nbits w).mode = s.mode := rfl

@[simp] theorem withFetchWord_mem (s : State) (nbits w : Nat) : (s.withFetchWord nbits w).mem = s.mem := rfl

@[simp] theorem withFetchWord_inputs (s : State) (nbits w : Nat) :
    (s.withFetchWord nbits w).inputs = issueFirst nbits w s.inputs := rfl

end Sys2Proof.Machine
end

