-- ==== Sys2Proof/Tests/Slice0.lean ====
section
/-! SUPPORT. Tests: expected values from `95_test_vectors.md` and the spec's worked examples; ill-formed terms that the
checks refuse; a state and operands that meet the hypotheses of each statement that has some. -/

namespace Sys2Proof.Tests

open Sys2Proof.Machine

/-- A memory whose cells are all readable. -/
def opened (cells : List Host.Cell) : Memory := ⟨cells, cells.map (·.1)⟩

/-- An Active block with the given registers and readable bytes. -/
def active (r p : Word) (cells : List Host.Cell) : State where
  register := r
  polynomial := p
  mode := .active
  mem := opened cells
  responses := []
  inputs := []
  faults := []
  resets := 0

/-- An Uninitialized block. -/
def fresh (cells : List Host.Cell) : State := (active 0xABCD#16 0x1021#16 cells).setMode .uninitialized

/-- `register` of a next state. -/
def registerOf : Host.Outcome State Fault Refusal → Option Word
  | .next s => some s.register
  | .fault _ => none
  | .refused _ => none

/-- What a next state has answered. -/
def responsesOf : Host.Outcome State Fault Refusal → Option (List Word)
  | .next s => some s.responses
  | .fault _ => none
  | .refused _ => none

/-- The faults a next state has recorded. -/
def faultsOf : Host.Outcome State Fault Refusal → Option (List FaultRecord)
  | .next s => some s.faults
  | .fault _ => none
  | .refused _ => none

/-- The fault of an outcome. -/
def faultOf : Host.Outcome State Fault Refusal → Option Fault
  | .next _ => none
  | .fault f => some f
  | .refused _ => none

/-- The refusal of an outcome. -/
def refusalOf : Host.Outcome State Fault Refusal → Option Refusal
  | .next _ => none
  | .fault _ => none
  | .refused r => some r

/-- The memory of `95_test_vectors.md` section 2.8. -/
def mem28 : List Host.Cell :=
  [(0x0100, 0x31#8), (0x0101, 0x32#8), (0x0102, 0x33#8), (0xFFFE, 0xAA#8), (0xFFFF, 0xBB#8)]

/-! ### Ill-formed terms are refused -/

theorem test_word_ill_formed : CommandWord.wellFormed 0x500000000#36 = false := by decide
theorem test_word_ill_formed_top : CommandWord.wellFormed 0xFFFFFFFFF#36 = false := by decide
theorem test_word_well_formed : CommandWord.wellFormed 0x4DEADBEEF#36 = true := by decide
theorem test_asm_seed_too_wide : AsmLine.wellFormed (.initSeed 65536) = false := by decide
theorem test_asm_init_seed_too_wide : AsmLine.wellFormed (.init 65536 0) = false := by decide
theorem test_asm_init_poly_too_wide : AsmLine.wellFormed (.init 0 65536) = false := by decide
theorem test_asm_feedbit_too_wide : AsmLine.wellFormed (.feedbit 256) = false := by decide
theorem test_asm_feedbool_not_a_bit : AsmLine.wellFormed (.feedbool 2) = false := by decide
theorem test_asm_feedbyte_too_wide : AsmLine.wellFormed (.feedbyte 256) = false := by decide
theorem test_asm_feedfwd_base_too_wide : AsmLine.wellFormed (.feedfwd 65536 1) = false := by decide
theorem test_asm_feedfwd_length_too_wide : AsmLine.wellFormed (.feedfwd 0 256) = false := by decide
theorem test_asm_feedrev_base_too_wide : AsmLine.wellFormed (.feedrev 65536 1) = false := by decide
theorem test_asm_feedrev_length_too_wide : AsmLine.wellFormed (.feedrev 0 256) = false := by decide
theorem test_asm_ill_formed_assembles_to_nothing : assemble (.feedbool 2) = none := by decide
theorem test_memory_unsorted : Memory.wf ⟨[(2, 0#8), (1, 0#8)], []⟩ = false := by decide
theorem test_memory_repeated : Memory.wf ⟨[(1, 0#8), (1, 1#8)], []⟩ = false := by decide
theorem test_memory_outside : Memory.wf ⟨[(65536, 0#8)], []⟩ = false := by decide
theorem test_readable_unsorted : Memory.wf ⟨[(1, 0#8), (2, 0#8)], [2, 1]⟩ = false := by decide
theorem test_readable_repeated : Memory.wf ⟨[(1, 0#8)], [1, 1]⟩ = false := by decide
theorem test_readable_outside : Memory.wf ⟨[(1, 0#8)], [65536]⟩ = false := by decide
theorem test_readable_without_byte : Memory.wf ⟨[(1, 0#8)], [2]⟩ = false := by decide
theorem test_memory_well_formed : Memory.wf (opened mem28) = true := by decide
theorem test_instr_well_formed : Instr.wellFormed (.init 0x0000#16 0x0000#16) = true := by decide

/-! ### Decoding: words written out from R50 to R52, and the table's numbering -/

theorem test_decode_init : decode 0x0FFFF1021#36 = .instr (.init 0xFFFF#16 0x1021#16) := by decide
theorem test_decode_init_zero : decode 0x000000000#36 = .instr (.init 0x0000#16 0x0000#16) := by decide
theorem test_decode_feedbit : decode 0x1000000A5#36 = .instr (.feedbit 0xA5#8) := by decide
theorem test_decode_feedbit_ignored : decode 0x1ABCD1280#36 = .instr (.feedbit 0x80#8) := by decide
theorem test_decode_feedfwd : decode 0x201000009#36 = .instr (.feedfwd 0x0100#16 9#8) := by decide
theorem test_decode_feedfwd_ignored : decode 0x2010012FF#36 = .instr (.feedfwd 0x0100#16 255#8) := by decide
theorem test_decode_feedrev : decode 0x302000002#36 = .instr (.feedrev 0x0200#16 2#8) := by decide
theorem test_decode_feedrev_top : decode 0x3FFFF0000#36 = .instr (.feedrev 0xFFFF#16 0#8) := by decide
theorem test_decode_getresult : decode 0x400000000#36 = .instr .getresult := by decide
theorem test_decode_reserved : decode 0x500000000#36 = .reserved 0x5#4 := by decide
theorem test_decode_all_ones : decode 0xFFFFFFFFF#36 = .reserved 0xF#4 := by decide
theorem test_encode_feedrev : encode (.feedrev 0x0200#16 2#8) = 0x302000002#36 := by decide
theorem test_table_word : decodeTableWord 40 0x201000009 = some (.feedfwd 0x0100#16 9#8) := by decide
theorem test_table_word_short : decodeTableWord 36 0x400000000 = some .getresult := by decide
theorem test_table_word_not_a_command : decodeTableWord 40 0x1000000000 = none := by decide

/-! ### The assembler's text (R60, R61) -/

theorem test_text_init_default :
    assembleText ['I', 'N', 'I', 'T', ' ', ';', ' ', 'x'] = some [.init 0xFFFF#16 0x1021#16] := by decide
theorem test_text_feedfwd :
    assembleText ['F', 'E', 'E', 'D', 'F', 'W', 'D', ' ', '0', 'x', '0', '1', '0', '0', ',', ' ', '9'] =
      some [.feedfwd 0x0100#16 9#8] := by decide
theorem test_text_feedbool :
    assembleText ['F', 'E', 'E', 'D', 'B', 'O', 'O', 'L', ' ', '1'] = some [.feedbit 0x80#8] := by decide
theorem test_text_unknown : assembleText ['N', 'O', 'P'] = none := by decide
theorem test_text_out_of_range :
    assembleText ['F', 'E', 'E', 'D', 'B', 'I', 'T', ' ', '2', '5', '6'] = none := by decide

/-! ### The operations (`95_test_vectors.md` sections 2.1, 2.3, 2.6, 2.8) -/

theorem test_init_from_reset :
    (registerOf (step (State.reset.withFetchWord 40 0x0FFFF1021))) = some 0xFFFF#16 := by decide
theorem test_init_zero_polynomial :
    registerOf (exec (.init 0x0000#16 0x0000#16) (active 0x1234#16 0x1021#16 [])) = some 0x0000#16 := by decide
theorem test_feedbit_shift_and_xor :
    registerOf (exec (.feedbit 0x80#8) (active 0x1234#16 0x8005#16 [])) = some 0xA46D#16 := by decide
theorem test_feedbit_low_bit_is_no_input :
    registerOf (exec (.feedbit 0x01#8) (active 0x7FFF#16 0x1021#16 [])) = some 0xFFFE#16 := by decide
theorem test_feedfwd_to_top :
    registerOf (exec (.feedfwd 0xFFFE#16 2#8) (active 0xFFFF#16 0x1021#16 mem28)) = some 0xF90A#16 := by decide +kernel
theorem test_feedfwd_past_top :
    faultOf (exec (.feedfwd 0xFFFE#16 3#8) (active 0xFFFF#16 0x1021#16 mem28)) = some (.boundsViolation 65536) := by
  decide +kernel
theorem test_feedrev_order :
    registerOf (exec (.feedrev 0x0100#16 3#8)
      (active 0xFFFF#16 0x1021#16 [(0x0100, 0x12#8), (0x0101, 0x34#8), (0x0102, 0x56#8)])) = some 0xDBD0#16 := by
  decide +kernel
theorem test_feedrev_first_unreadable :
    faultOf (exec (.feedrev 0x00FF#16 3#8) (active 0xFFFF#16 0x1021#16 mem28)) = some (.boundsViolation 0x00FF) := by
  decide +kernel
theorem test_getresult_after_feed :
    responsesOf (execAll [.init 0xFFFF#16 0x1021#16, .feedfwd 0x0100#16 3#8, .getresult] (fresh mem28)) =
      some [0x5BCE#16] := by decide +kernel
theorem test_getresult_uninitialized :
    responsesOf (exec .getresult (fresh [])) = some [0xABCD#16] ∧
    faultsOf (exec .getresult (fresh [])) = some [.uninitializedUse .getresult] := by decide
theorem test_feedbit_uninitialized :
    registerOf (exec (.feedbit 0x00#8) ((fresh []).setRegister 0xFFFF#16)) = some 0xEFDF#16 ∧
    faultsOf (exec (.feedbit 0x00#8) (fresh [])) = some [.uninitializedUse .feedbit] := by decide
theorem test_init_does_not_clear_faults :
    faultsOf (execAll [.getresult, .init 0xFFFF#16 0x1021#16, .feedbit 0x80#8] (fresh [])) =
      some [.uninitializedUse .getresult] := by decide

/-! ### Steps from reset, the host's actions, and the extension -/

theorem test_reset_runs_feedfwd_word :
    faultsOf (step (State.reset.withFetchWord 40 0x200000000)) = some [.uninitializedUse .feedfwd] := by decide
theorem test_reset_nothing_readable :
    faultOf (step (State.reset.withFetchWord 40 0x201000001)) = some (.boundsViolationBeforeInit .feedfwd 0x0100) := by
  decide
theorem test_reset_runs_getresult_word : responsesOf (step (State.reset.withFetchWord 40 0x400000000)) =
    some [Config.resetRegister 0] := rfl
theorem test_reserved_word_first :
    refusalOf (step (State.reset.withFetchWord 40 0x500000000)) = some (.reservedOpcode 0x5#4) := by decide
theorem test_overlap_refused :
    refusalOf (perform (.overlap 0x400000000#36 0x400000000#36) (active 0#16 0#16 [])) = some .concurrentIssue := by
  decide
theorem test_write_keeps_order : ((opened mem28).write 0x0103#16 0x34#8).cells =
    [(0x0100, 0x31#8), (0x0101, 0x32#8), (0x0102, 0x33#8), (0x0103, 0x34#8), (0xFFFE, 0xAA#8), (0xFFFF, 0xBB#8)] := by
  decide
theorem test_write_makes_nothing_readable : ((opened mem28).write 0x0103#16 0x34#8).read 0x0103 = none := by decide
theorem test_expose_after_write :
    (((opened mem28).write 0x0103#16 0x34#8).expose 0x0103#16).read 0x0103 = some 0x34#8 := by decide
theorem test_release_removes : ((opened mem28).release 0x0101#16).readable = [0x0100, 0x0102, 0xFFFE, 0xFFFF] := by
  decide
theorem test_overlap_with_reserved_word :
    refusalOf (perform (.overlap 0x500000000#36 0x400000000#36) (active 0#16 0#16 [])) = some .concurrentIssue := by
  decide

/-! ### The hypotheses of the statements can be met -/

/-- An Active block over the memory of section 2.8, the host's actions given. -/
def pending (as : List HostAction) : State := (active 0xFFFF#16 0x1021#16 mem28).setInputs as

theorem witness_DecoderOnEveryWord : (0x0FFFFFFFF#36).toNat / 2 ^ 32 = 0x0 ∧ (0x100000000#36).toNat / 2 ^ 32 = 0x1 ∧
    (0x2FFFFFFFF#36).toNat / 2 ^ 32 = 0x2 ∧ (0x300000000#36).toNat / 2 ^ 32 = 0x3 ∧
    (0x4FFFFFFFF#36).toNat / 2 ^ 32 = 0x4 ∧ 0x5 ≤ (0x500000000#36).toNat / 2 ^ 32 := by decide

theorem witness_PseudoInstructionsExpand : 7 < 8 ∧ (active 0#16 0#16 []).mode = .active := by decide

theorem witness_ReservedCommandRefused :
    (pending [.command 0x500000000#36]).inputs = .command 0x500000000#36 :: [] ∧
    0x5 ≤ (0x500000000#36).toNat / 2 ^ 32 := by decide

theorem witness_StepRunsDecodedCommand :
    (pending [.command 0x400000000#36, .reset]).inputs = .command 0x400000000#36 :: [.reset] ∧
    decode 0x400000000#36 = .instr .getresult := by decide

theorem witness_InitLoadsSeedAndPolynomial :
    (0x000000000#36).toNat / 2 ^ 32 = 0x0 ∧ (0x0FFFFFFFF#36).toNat / 2 ^ 32 = 0x0 := by decide

theorem witness_FeedbitAdvancesOneBit :
    (active 0xFFFF#16 0x1021#16 []).mode = .active ∧ (active 0xFFFF#16 0x1021#16 []).register = 0xFFFF#16 ∧
    (active 0xFFFF#16 0x1021#16 []).polynomial = 0x1021#16 ∧ (fresh []).mode = .uninitialized ∧
    (0x1FFFFFFFF#36).toNat / 2 ^ 32 = 0x1 := by decide

theorem witness_StepBitThreeSteps :
    (0x7FFF#16).getLsbD 15 = false ∧ (0x8000#16).getLsbD 15 = true ∧
    (0x7F#8).getLsbD 7 = false ∧ (0x80#8).getLsbD 7 = true := by decide

theorem witness_StepBitEquivalentForms : 1 ≤ 1 ∧ 1 ≤ 15 ∧ 1 ≤ 15 ∧ 15 ≤ 15 := by decide

theorem witness_OnlyTopBitOfArgumentMatters :
    (0x7F#8).getLsbD 7 = (0x00#8).getLsbD 7 ∧ (0xFF#8).getLsbD 7 = (0x80#8).getLsbD 7 ∧
    (0x1ABCD1280#36).toNat / 2 ^ 32 = 0x1 ∧ (0x100000080#36).toNat / 2 ^ 32 = 0x1 ∧
    (0x1ABCD1280#36).getLsbD 7 = (0x100000080#36).getLsbD 7 := by decide

theorem witness_StepBitSpecialValues : (0x7F#8).getLsbD 7 = false ∧ (0x80#8).getLsbD 7 = true := by decide

theorem witness_StepByteFeedsTopBitFirst : 0 < 8 ∧ 7 < 8 := by decide

/-- The two readable bytes at the top of the space, the first clause of FEEDFWD and of FEEDREV. -/
theorem witness_feed_readable :
    (pending []).mode = .active ∧ ([0xAA#8, 0xBB#8] : List Byte).length = (2#8 : Byte).toNat ∧
    ∀ i d, ([0xAA#8, 0xBB#8] : List Byte)[i]? = some d → (pending []).mem.read ((0xFFFE#16).toNat + i) = some d := by
  refine ⟨rfl, rfl, fun i d h => ?_⟩
  match i with
  | 0 => simp only [List.getElem?_cons_zero, Option.some.injEq] at h; subst h; decide
  | 1 => simp only [List.getElem?_cons_succ, List.getElem?_cons_zero, Option.some.injEq] at h; subst h; decide
  | n + 2 => simp at h

theorem witness_FeedfwdFeedsAscending :
    (fresh mem28).mode = .uninitialized ∧
    ((pending []).mode = .active ∧ 3 < (4#8 : Byte).toNat ∧
      (∀ j, j < 3 → ((pending []).mem.read ((0x0100#16).toNat + j)).isSome) ∧
      (pending []).mem.read ((0x0100#16).toNat + 3) = none) ∧
    (0x2FFFFFFFF#36).toNat / 2 ^ 32 = 0x2 := by decide

theorem witness_feedfwd_past_top :
    (pending []).mode = .active ∧ 65536 < (0xFFFE#16).toNat + (3#8 : Byte).toNat ∧
    ∀ a, (0xFFFE#16).toNat ≤ a → a < 65536 → ((pending []).mem.read a).isSome := by
  refine ⟨rfl, by decide, fun a h1 h2 => ?_⟩
  have h3 : a = 65534 ∨ a = 65535 := by
    have : (0xFFFE#16).toNat = 65534 := rfl
    omega
  rcases h3 with rfl | rfl <;> decide

theorem witness_feedfwd_example :
    (active 0xFFFF#16 0x1021#16 [(0x0100, 0x00#8)]).mem.read 0x0100 = some 0x00#8 ∧
    (active 0xFFFF#16 0x1021#16 [(0x0100, 0x00#8)]).mode = .active := by decide

theorem witness_FeedrevFeedsDescending :
    (fresh mem28).mode = .uninitialized ∧
    ((pending []).mode = .active ∧ 0 < (3#8 : Byte).toNat ∧
      (∀ j, j < 3 → 0 < j → ((pending []).mem.read ((0x00FF#16).toNat + j)).isSome) ∧
      (pending []).mem.read ((0x00FF#16).toNat + 0) = none) ∧
    65536 < (0xFFFE#16).toNat + (3#8 : Byte).toNat ∧ (0x300000000#36).toNat / 2 ^ 32 = 0x3 := by decide

theorem witness_feedrev_example :
    (active 0xFFFF#16 0x1021#16 [(0x0200, 0x02#8), (0x0201, 0x01#8)]).mem.read 0x0200 = some 0x02#8 ∧
    (active 0xFFFF#16 0x1021#16 [(0x0200, 0x02#8), (0x0201, 0x01#8)]).mem.read 0x0201 = some 0x01#8 := by decide

theorem witness_feed_before_init (i : Nat) (d : Byte) (h : ([0xAA#8, 0xBB#8] : List Byte)[i]? = some d) :
    (fresh mem28).mode = .uninitialized ∧ (fresh mem28).mem.read ((0xFFFE#16).toNat + i) = some d := by
  refine ⟨rfl, ?_⟩
  match i with
  | 0 => simp only [List.getElem?_cons_zero, Option.some.injEq] at h; subst h; decide
  | 1 => simp only [List.getElem?_cons_succ, List.getElem?_cons_zero, Option.some.injEq] at h; subst h; decide
  | n + 2 => simp at h

theorem witness_ZeroLengthFeedIsNoOp : (pending []).mode = .active ∧
    exec (.feedfwd 0x0300#16 0#8) (pending []) = .next (pending []) ∧
    exec (.feedrev 0xFFFF#16 0#8) (pending []) = .next (pending []) := ⟨rfl, rfl, rfl⟩

theorem witness_OutcomesByOperation :
    registerOf (exec (.feedfwd 0xFFFE#16 2#8) (fresh mem28)) ≠ none ∧
    registerOf (exec (.feedrev 0xFFFE#16 2#8) (pending [])) ≠ none := by decide +kernel

theorem witness_GetresultRespondsRegister :
    (pending []).mode = .active ∧ (fresh []).mode = .uninitialized ∧ (0x4DEADBEEF#36).toNat / 2 ^ 32 = 0x4 ∧
    (fresh [(0xFFFF, 0x00#8)]).mem.read (0xFFFF#16).toNat = some 0x00#8 := by decide

theorem witness_OutcomePriority :
    0x5 ≤ (0xFFFFFFFFF#36).toNat / 2 ^ 32 ∧
    ((fresh []).mode = .uninitialized ∧ 0 < (1#8 : Byte).toNat ∧ (fresh []).mem.read ((0x0300#16).toNat + 0) = none) ∧
    faultOf (exec (.feedfwd 0x0100#16 4#8) (pending [])) = some (.boundsViolation 0x0103) ∧
    faultOf (exec (.feedrev 0x0100#16 4#8) (pending [])) = some (.boundsViolation 0x0103) ∧
    faultOf (exec (.feedfwd 0x0100#16 4#8) (fresh mem28)) = some (.boundsViolationBeforeInit .feedfwd 0x0103) ∧
    faultOf (exec (.feedrev 0x0100#16 4#8) (fresh mem28)) = some (.boundsViolationBeforeInit .feedrev 0x0103) := by
  decide +kernel

theorem witness_OperationFrames :
    registerOf (exec (.feedrev 0xFFFE#16 2#8) (pending [])) ≠ none ∧ registerOf (exec .getresult (pending [])) ≠ none ∧
    registerOf (exec (.feedfwd 0xFFFE#16 2#8) (pending [])) ≠ none ∧
    registerOf (exec (.feedbit 0#8) (pending [])) ≠ none ∧ registerOf (exec (.init 0#16 0#16) (fresh [])) ≠ none := by
  decide +kernel

theorem witness_ModeTransitions :
    (∀ seed poly, Instr.getresult ≠ .init seed poly) ∧ exec .getresult (pending []) =
      .next ((pending []).respond 0xFFFF#16) ∧ ((fresh []).mode = .uninitialized ∧ registerOf (exec .getresult (fresh [])) ≠ none) ∧
    (step (pending [.reset]) = .next ((pending []).resetBlock) ∧ (pending [.reset]).mode = .active ∧
      ((pending []).resetBlock).mode = .uninitialized) :=
  by refine ⟨fun _ _ => by simp, rfl, ⟨rfl, by decide⟩, rfl, rfl, rfl⟩

theorem witness_PolynomialConstantBetweenInits :
    (∀ act ∈ [HostAction.command 0x400000000#36], act ≠ .reset ∧
      ∀ w, act = .command w → ∀ seed poly, decode w ≠ .instr (.init seed poly)) ∧
    runActions [.command 0x400000000#36] (pending []) = .next ((pending []).respond 0xFFFF#16) := by
  refine ⟨fun act h => ?_, rfl⟩
  simp only [List.mem_singleton] at h
  subst h
  refine ⟨by decide, fun w hw seed poly => ?_⟩
  cases hw
  rw [test_decode_getresult]
  simp

theorem witness_OperationsDependOnTheirReadsOnly :
    (pending []).register = (active 0xFFFF#16 0x1021#16 [(0x0100, 0x31#8)]).register ∧
    (pending []).polynomial = (active 0xFFFF#16 0x1021#16 [(0x0100, 0x31#8)]).polynomial ∧
    (pending []).mode = (active 0xFFFF#16 0x1021#16 [(0x0100, 0x31#8)]).mode ∧
    ∀ (base : Word) (len : Byte),
      Instr.feedfwd base len ∈ [Instr.feedfwd 0x0100#16 1#8] ∨ Instr.feedrev base len ∈ [Instr.feedfwd 0x0100#16 1#8] →
      ∀ i, i < len.toNat → (pending []).mem.read (base.toNat + i) =
        (active 0xFFFF#16 0x1021#16 [(0x0100, 0x31#8)]).mem.read (base.toNat + i) := by
  refine ⟨rfl, rfl, rfl, fun base len h i hi => ?_⟩
  simp only [List.mem_singleton, Instr.feedfwd.injEq, reduceCtorEq, or_false] at h
  obtain ⟨rfl, rfl⟩ := h
  have : i = 0 := by
    have : (1#8 : Byte).toNat = 1 := rfl
    omega
  subst this
  decide

theorem witness_ByteFeedIsEightBitFeeds :
    (pending []).mode = .active ∧ (pending []).mem.read (0xFFFF#16).toNat = some 0xBB#8 := by decide

theorem witness_ReverseFeedIsForwardOverReversed :
    ([0xFF#8, 0xFF#8] : List Byte).reverse = [0xFF#8, 0xFF#8] ∧
    (active 0#16 0x1021#16 [(0x0200, 2#8), (0x0201, 1#8), (0x0210, 1#8), (0x0211, 2#8)]).mode = .active ∧
    ∀ i, i < (2#8 : Byte).toNat →
      ((active 0#16 0x1021#16 [(0x0200, 2#8), (0x0201, 1#8), (0x0210, 1#8), (0x0211, 2#8)]).mem.read
        ((0x0200#16).toNat + i)).isSome ∧
      (active 0#16 0x1021#16 [(0x0200, 2#8), (0x0201, 1#8), (0x0210, 1#8), (0x0211, 2#8)]).mem.read
        ((0x0210#16).toNat + i) =
      (active 0#16 0x1021#16 [(0x0200, 2#8), (0x0201, 1#8), (0x0210, 1#8), (0x0211, 2#8)]).mem.read
        ((0x0200#16).toNat + ((2#8 : Byte).toNat - 1 - i)) := by decide

theorem witness_FeedsSplitAndJoin : (pending []).mode = .active ∧
    (255#8 : Byte).toNat + (0#8 : Byte).toNat < 256 ∧ (0xFF00#16).toNat + (255#8 : Byte).toNat < 65536 := by decide

theorem witness_OrderSensitivity : (0x1021#16).getLsbD 0 = true ∧ (0x01#8 : Byte) ≠ 0x02#8 := by decide

theorem witness_InitDiscardsHistory :
    (fresh mem28).mem = ((pending [.reset]).respond 0x1234#16).mem ∧
    ∀ act ∈ [HostAction.command 0x201000003#36], act ≠ .reset := by decide

theorem witness_PolynomialSensitivity :
    (∀ pre t post, [0x80#8] = pre ++ t :: post →
      ((feedBits 0xFFFF#16 0x1021#16 pre).getLsbD 15 ^^ t.getLsbD 7) = false) ∧
    ((feedBits 0xFFFF#16 0x1021#16 [0x80#8]).getLsbD 15 ^^ (0x00#8).getLsbD 7) = true ∧ (0x1021#16) ≠ 0x8005#16 := by
  refine ⟨fun pre t post h => ?_, by decide, by decide⟩
  cases pre with
  | nil =>
    simp only [List.nil_append, List.cons.injEq] at h
    rw [← h.1]
    decide
  | cons x xs => simp at h

theorem witness_LinearityOfFeeds : ([0xA5#8] : List Byte).length = ([0x00#8] : List Byte).length := by decide

theorem witness_FeedingRegisterToItselfGivesZero : (0x1021#16).getLsbD 0 = true ∧ (0x0001#16).getLsbD 0 = true := by
  decide

theorem witness_ZeroPolynomialShiftsOnly : 16 ≤ (List.replicate 16 0x80#8).length := by decide

theorem witness_GetresultIsTransparent :
    decode 0x4FFFFFFFF#36 = .instr .getresult ∧ (∀ act ∈ [HostAction.command 0x100000080#36], act ≠ .reset) ∧
    runActions [.command 0x0FFFF1021#36] (fresh []) = .next (active 0xFFFF#16 0x1021#16 []) ∧
    (active 0xFFFF#16 0x1021#16 []).mode = .active := ⟨by decide, by decide, rfl, rfl⟩

theorem witness_ResetEvent : (pending [.reset]).inputs = .reset :: [] := by decide

theorem witness_HostActionsOnMemory :
    memoryLookup 0x0100 (pending []).mem.cells = some 0x31#8 ∧ (0x0100 : Nat) ≠ (0xFFFF#16).toNat := by decide

theorem witness_ReadPrimitive :
    (pending []).mem.wf = true ∧ (65535 < 65536 ∧ 65535 ∈ (pending []).mem.readable) ∧
    (65535, 0xBB#8) ∈ (pending []).mem.cells ∧ ¬ (65536 < 65536 ∧ 65536 ∈ (pending []).mem.readable) ∧
    ¬ (0x0103 < 65536 ∧ 0x0103 ∈ (pending []).mem.readable) := by decide

theorem witness_NoAddressPastTheSpace :
    65536 ≤ 65536 ∧ 65536 < (0xFFFF#16).toNat + (2#8 : Byte).toNat := by decide

theorem witness_RunIsActionsInTurn : (pending []).inputs = [] := by decide

theorem witness_StepKeepsMemoryCanonical :
    (pending [.write 0x0103#16 0x34#8]).mem.wf = true ∧
    step (pending [.write 0x0103#16 0x34#8]) = .next ((pending []).setMem ((opened mem28).write 0x0103#16 0x34#8)) :=
  ⟨by decide, rfl⟩

theorem witness_EveryOperationCompletes :
    dutiesMet (fresh []) (.init 0#16 0#16) = true ∧ dutiesMet (pending []) (.feedbit 0#8) = true ∧
    dutiesMet (pending []) (.feedfwd 0xFFFE#16 2#8) = true ∧ dutiesMet (pending []) (.feedrev 0x0100#16 3#8) = true ∧
    dutiesMet (pending []) .getresult = true := by decide

theorem witness_UseBeforeInitIsCarriedOut :
    (fresh mem28).mode = .uninitialized ∧ (∀ seed poly, Instr.getresult ≠ .init seed poly) ∧
    exec .getresult { fresh mem28 with mode := .active } =
      .next ((active 0xABCD#16 0x1021#16 mem28).respond 0xABCD#16) ∧
    (∀ seed poly, Instr.feedfwd 0x0300#16 1#8 ≠ .init seed poly) ∧
    exec (.feedfwd 0x0300#16 1#8) { fresh mem28 with mode := .active } = .fault (.boundsViolation 0x0300) :=
  by refine ⟨rfl, fun _ _ => by simp, rfl, fun _ _ => by simp, rfl⟩

theorem witness_ZeroLengthBeforeInit : (fresh []).mode = .uninitialized := rfl

theorem witness_BoundsViolationLeavesRestInExtension :
    exec (.feedfwd 0x0300#16 1#8) (pending []) = .fault (.boundsViolation 0x0300) := rfl

theorem witness_RecordedFaultsStay :
    (fresh []).mode = .uninitialized ∧
    step ((fresh []).setInputs [.command 0x0FFFF1021#36]) = .next (active 0xFFFF#16 0x1021#16 []) ∧
    stepOn (pending [.command 0x203000001#36]) = .next (goOn (pending []) (.boundsViolation 0x0300)) :=
  ⟨rfl, rfl, rfl⟩

theorem witness_ExtensionAgreesWithMachine :
    step (pending [.command 0x400000000#36]) = .next ((pending []).respond 0xFFFF#16) ∧
    step (pending [.command 0x203000001#36]) = .fault (.boundsViolation 0x0300) ∧
    step (pending [.command 0x500000000#36]) = .refused (.reservedOpcode 0x5#4) := ⟨rfl, rfl, rfl⟩

end Sys2Proof.Tests
end

section
/-! SUPPORT. The block's state (`10_state.md`): what an operation other than INIT leaves unchanged, and the four
statements of the family. -/

namespace Sys2Proof.Machine

/-! ### What an operation and a host action leave unchanged -/

/-- The frame of the operations other than INIT: `register`, the responses and the record of faults may change, and
the record grows by the operation's own use of the block before INIT. -/
theorem exec_frame_of_ne_init {i : Instr} {s t : State} (hi : ∀ seed poly, i ≠ .init seed poly)
    (h : exec i s = .next t) :
    t = { s with register := t.register, responses := t.responses,
                 faults := s.faults ++ usesRecorded (operationOf i) s } := by
  rcases exec_next_cases h with ⟨seed, poly, rfl, -⟩ | ⟨r, op, rfl, hop⟩ | ⟨rfl, rfl⟩
  · exact absurd rfl (hi seed poly)
  · have hname : op = operationOf i := by
      rcases hop with ⟨rfl, b, rfl⟩ | ⟨rfl, base, len, rfl⟩ | ⟨rfl, base, len, rfl⟩ <;> rfl
    rw [hname]
  · rfl

theorem exec_mode_of_ne_init {i : Instr} {s t : State} (hi : ∀ seed poly, i ≠ .init seed poly)
    (h : exec i s = .next t) : t.mode = s.mode := by
  rw [exec_frame_of_ne_init hi h]

theorem exec_polynomial_of_ne_init {i : Instr} {s t : State} (hi : ∀ seed poly, i ≠ .init seed poly)
    (h : exec i s = .next t) : t.polynomial = s.polynomial := by
  rw [exec_frame_of_ne_init hi h]

theorem exec_faults_of_ne_init {i : Instr} {s t : State} (hi : ∀ seed poly, i ≠ .init seed poly)
    (h : exec i s = .next t) : t.faults = s.faults ++ usesRecorded (operationOf i) s := by
  rw [exec_frame_of_ne_init hi h]

theorem usesRecorded_uninitialized {s : State} (op : Operation) (h : s.mode = .uninitialized) :
    usesRecorded op s = [.uninitializedUse op] := by
  simp [usesRecorded, h]

/-- No operation leaves Active mode (`10_state.md` R19). -/
theorem exec_keeps_active {i : Instr} {s t : State} (hs : s.mode = .active) (h : exec i s = .next t) :
    t.mode = .active := by
  cases i with
  | init seed poly =>
    cases h
    rfl
  | feedbit | feedfwd | feedrev | getresult =>
    rw [exec_mode_of_ne_init (by simp) h, hs]

/-- No host action but a reset leaves Active mode (`10_state.md` R19). -/
theorem perform_keeps_active {act : HostAction} {s t : State} (hact : act ≠ .reset) (hs : s.mode = .active)
    (h : perform act s = .next t) : t.mode = .active := by
  rcases perform_next_cases h with ⟨w, i, -, -, hexec⟩ | ⟨addr, d, -, rfl⟩ | ⟨addr, -, rfl⟩ | ⟨addr, -, rfl⟩ |
    ⟨hreset, -⟩
  · exact exec_keeps_active hs hexec
  · exact hs
  · exact hs
  · exact hs
  · exact absurd hreset hact

/-- No host action but a reset or a command that spells INIT writes `polynomial` (`10_state.md` R17). -/
theorem perform_keeps_polynomial {act : HostAction} {s t : State} (hact : act ≠ .reset)
    (hinit : ∀ w, act = .command w → ∀ seed poly, decode w ≠ .instr (.init seed poly))
    (h : perform act s = .next t) : t.polynomial = s.polynomial := by
  rcases perform_next_cases h with ⟨w, i, hw, hdecode, hexec⟩ | ⟨addr, d, -, rfl⟩ | ⟨addr, -, rfl⟩ |
    ⟨addr, -, rfl⟩ | ⟨hreset, -⟩
  · have hi : ∀ seed poly, i ≠ .init seed poly := by
      rintro seed poly rfl
      exact hinit w hw seed poly hdecode
    exact exec_polynomial_of_ne_init hi hexec
  · rfl
  · rfl
  · rfl
  · exact absurd hreset hact

/-- A run of at least one action that ends in a next state performs the first and runs the others. -/
theorem runActions_cons_next {act : HostAction} {rest : List HostAction} {s t : State}
    (h : runActions (act :: rest) s = .next t) : ∃ u, perform act s = .next u ∧ runActions rest u = .next t := by
  rw [runActions] at h
  cases hp : perform act s with
  | next u => exact ⟨u, rfl, by simpa [hp] using h⟩
  | fault f => simp [hp] at h
  | refused r => simp [hp] at h

/-! ### Feeds over readable ranges -/

/-- The bytes of a readable range are what the addresses read as, in ascending order. -/
theorem map_read_ascending {m : Memory} {base : Word} {len : Byte} (h : rangeReadable m base len = true) :
    (ascending base len).map m.read = (rangeBytes m base len).map some := by
  simp only [ascending, rangeBytes, List.map_map]
  refine List.map_congr_left fun i hi => ?_
  have hread : (m.read (effectiveAddress base i)).isSome = true := List.all_eq_true.1 h i hi
  obtain ⟨d, hd⟩ := Option.isSome_iff_exists.1 hread
  simp [hd]

theorem map_read_descending {m : Memory} {base : Word} {len : Byte} (h : rangeReadable m base len = true) :
    (descending base len).map m.read = (rangeBytes m base len).reverse.map some := by
  rw [descending, List.map_reverse, map_read_ascending h, List.map_reverse]

/-- In Active mode a checked feed over readable addresses puts `fwd` of their bytes into `register`. -/
theorem checkedFeed_of_readable {op : Operation} {s : State} {addrs : List Nat} {ds : List Byte}
    (hs : s.mode = .active) (h : addrs.map s.mem.read = ds.map some) :
    checkMode op s (feedRange addrs s) = .next { s with register := fwd s.register s.polynomial ds } := by
  rw [checkMode_active op _ hs, feedRange, feedBytes_ok h]
  rfl

/-! ### The statements -/

/-- Settles O40, field by field: no address is listed as readable after power-on, so each reads as
nothing. -/
theorem powerOnState : Obligations.PowerOnState :=
  ⟨rfl, rfl, rfl, fun _ => Memory.read_of_not_readable List.not_mem_nil, rfl, rfl, rfl⟩

/-- Settles O25, from the frame of the operations other than INIT and from what a step can do. -/
theorem modeTransitions : Obligations.ModeTransitions := by
  refine ⟨rfl, fun s => ⟨s.resetBlock, rfl, rfl⟩, fun seed poly s => ⟨s.loadContext seed poly, rfl, rfl⟩,
    fun i s t => exec_mode_of_ne_init, fun i s t hi hs h => ⟨?_, ?_⟩, fun s t h hs ht => ?_⟩
  · rw [exec_mode_of_ne_init hi h, hs]
  · rw [exec_faults_of_ne_init hi h, usesRecorded_uninitialized _ hs]
  · rcases step_next_cases h with ⟨-, rfl⟩ | ⟨act, rest, hinputs, hperform⟩
    · rw [hs] at ht
      cases ht
    · have hreset : act = .reset := by
        by_contra hact
        rw [perform_keeps_active (s := s.setInputs rest) hact hs hperform] at ht
        cases ht
      rw [hinputs, hreset, List.head?_cons]

/-- Settles O26, by induction on the actions: none of them writes `polynomial`. -/
theorem polynomialConstantBetweenInits : Obligations.PolynomialConstantBetweenInits := by
  intro acts
  induction acts with
  | nil =>
    intro s t _ h
    cases h
    rfl
  | cons act rest ih =>
    intro s t hacts h
    obtain ⟨u, hperform, hrun⟩ := runActions_cons_next h
    obtain ⟨hreset, hinit⟩ := hacts act List.mem_cons_self
    calc t.polynomial = u.polynomial := ih u t (fun a ha => hacts a (List.mem_cons_of_mem act ha)) hrun
      _ = s.polynomial := perform_keeps_polynomial hreset hinit hperform

/-- Settles O47, operation by operation: the duties give Active mode, and for a feed the bytes of its range. -/
theorem everyOperationCompletes : Obligations.EveryOperationCompletes := by
  intro i s h
  cases i with
  | init seed poly => rfl
  | feedbit b => exact checkMode_active .feedbit _ (of_decide_eq_true h)
  | feedfwd base len =>
    obtain ⟨hs, hrange⟩ : s.mode = .active ∧ rangeReadable s.mem base len = true := by simpa [dutiesMet] using h
    exact checkedFeed_of_readable hs (map_read_ascending hrange)
  | feedrev base len =>
    obtain ⟨hs, hrange⟩ : s.mode = .active ∧ rangeReadable s.mem base len = true := by simpa [dutiesMet] using h
    exact checkedFeed_of_readable hs (map_read_descending hrange)
  | getresult => exact checkMode_active .getresult _ (of_decide_eq_true h)

end Sys2Proof.Machine
end

section
/-! SUPPORT. The data memory (`20_memory.md`): the canonical form that every step keeps, the read of a byte, feeds over
no address and past the address space, and the seven statements of the family. -/

namespace Sys2Proof.Machine

/-! ### The read of a byte -/

/-- In rising cells the byte an address looks up is the one listed at it. -/
theorem memoryLookup_eq_some_iff {lo a : Nat} {d : Byte} {cells : List Host.Cell} (h : memoryFrom lo cells = true) :
    memoryLookup a cells = some d ↔ (a, d) ∈ cells := by
  induction cells generalizing lo with
  | nil => simp
  | cons cell rest ih =>
    obtain ⟨b, e⟩ := cell
    obtain ⟨-, -, hrest⟩ := (memoryFrom_cons _ _ _ _).1 h
    rw [memoryLookup_cons, List.mem_cons, ← ih hrest]
    by_cases hb : b = a
    · have hnone : memoryLookup a rest = none := memoryLookup_of_lt hrest (by omega)
      simp [hb, hnone, eq_comm]
    · simp [hb, Ne.symm hb]

/-- A feed whose first address reads as nothing stops there (`20_memory.md` R31). -/
theorem feedRange_cons_of_read_none {s : State} {a : Nat} (h : s.mem.read a = none) (rest : List Nat) :
    feedRange (a :: rest) s = .fault (.boundsViolation a) := by
  simp [feedRange, feedBytes, h]

/-! ### Feeds over no address and past the address space -/

/-- A feed over no address changes at most the record of faults (`20_memory.md` R45). -/
theorem checkedFeed_nil (op : Operation) (s : State) :
    checkMode op s (feedRange [] s) = .next { s with faults := s.faults ++ usesRecorded op s } :=
  checkMode_next op s s

theorem exec_feedfwd_zero (base : Word) (s : State) :
    exec (.feedfwd base 0#8) s = .next { s with faults := s.faults ++ usesRecorded .feedfwd s } :=
  checkedFeed_nil .feedfwd s

theorem exec_feedrev_zero (base : Word) (s : State) :
    exec (.feedrev base 0#8) s = .next { s with faults := s.faults ++ usesRecorded .feedrev s } :=
  checkedFeed_nil .feedrev s

theorem usesRecorded_active {s : State} (op : Operation) (h : s.mode = .active) : usesRecorded op s = [] := by
  simp [usesRecorded, h]

/-- A feed that completes has read a byte at each of its addresses. -/
theorem isSome_read_of_checkedFeed {op : Operation} {addrs : List Nat} {s t : State}
    (h : checkMode op s (feedRange addrs s) = .next t) {a : Nat} (ha : a ∈ addrs) :
    (s.mem.read a).isSome = true := by
  rcases feedBytes_cases s.mem s.polynomial addrs s.register with ⟨ds, hds, -⟩ | ⟨_, b, _, -, -, -, herr⟩
  · have hread : s.mem.read a ∈ ds.map some := hds ▸ List.mem_map_of_mem ha
    obtain ⟨d, -, hd⟩ := List.mem_map.1 hread
    rw [← hd, Option.isSome_some]
  · rcases checkedFeed_cases op addrs s with ⟨r, hok, -⟩ | ⟨_, -, hfault⟩
    · simp [hok] at herr
    · simp [hfault] at h

/-- A feed over an address past the space does not complete (`20_memory.md` R31, R32). -/
theorem checkedFeed_ne_next_of_ge {op : Operation} {addrs : List Nat} {s : State} {a : Nat} (ha : a ∈ addrs)
    (hge : 65536 ≤ a) (t : State) : checkMode op s (feedRange addrs s) ≠ .next t := by
  intro h
  have hread := isSome_read_of_checkedFeed h ha
  rw [Memory.read_of_ge _ hge] at hread
  cases hread

/-- The last address of a range that ends past the space lies past it: none is reduced modulo 65536
(`20_memory.md` R32). -/
theorem exists_index_past_space {base : Word} {len : Byte} (h : 65536 < base.toNat + len.toNat) :
    ∃ i, i < len.toNat ∧ 65536 ≤ base.toNat + i :=
  ⟨len.toNat - 1, by have := base.isLt; omega, by omega⟩

/-! ### What keeps the data memory -/

/-- No operation writes the data memory (`20_memory.md` R36). -/
theorem exec_mem {i : Instr} {s t : State} (h : exec i s = .next t) : t.mem = s.mem := by
  rcases exec_next_cases h with ⟨seed, poly, -, rfl⟩ | ⟨r, op, rfl, -⟩ | ⟨-, rfl⟩ <;> rfl

/-- No action of the host breaks the memory's canonical form. -/
theorem perform_keeps_wf {act : HostAction} {s t : State} (hs : s.mem.wf = true) (h : perform act s = .next t) :
    t.mem.wf = true := by
  rcases perform_next_cases h with ⟨w, i, -, -, hexec⟩ | ⟨addr, d, -, rfl⟩ | ⟨addr, -, rfl⟩ | ⟨addr, -, rfl⟩ |
    ⟨-, rfl⟩
  · rw [exec_mem hexec]
    exact hs
  · exact Memory.wf_write hs addr d
  · exact Memory.wf_expose hs addr
  · exact Memory.wf_release hs addr
  · exact hs

/-! ### The statements -/

/-- Settles O45: a step changes nothing or performs one action, and each action keeps the form. -/
theorem stepKeepsMemoryCanonical : Obligations.StepKeepsMemoryCanonical := by
  intro s t hs h
  rcases step_next_cases h with ⟨-, rfl⟩ | ⟨act, rest, -, hperform⟩
  · exact hs
  · exact perform_keeps_wf (s := s.setInputs rest) hs hperform

/-- Settles O43: a range past the space holds an address that reads as nothing, so its feed does not complete. -/
theorem noAddressPastTheSpace : Obligations.NoAddressPastTheSpace := by
  refine ⟨fun m a => Memory.read_of_ge m, fun base len s h => ?_⟩
  obtain ⟨i, hi, hge⟩ := exists_index_past_space h
  exact ⟨checkedFeed_ne_next_of_ge (mem_ascending.2 ⟨i, hi, rfl⟩) hge,
    checkedFeed_ne_next_of_ge (mem_descending.2 ⟨i, hi, rfl⟩) hge⟩

/-- Settles O52: a canonical memory lists one byte at each readable address, and `MemRead` looks it up. -/
theorem readPrimitive : Obligations.ReadPrimitive := by
  intro s addr hwf
  obtain ⟨hcells, -, hbyte⟩ := (Memory.wf_iff s.mem).1 hwf
  constructor
  · rintro ⟨hlt, hreadable⟩
    have hread := Memory.read_of_readable hlt hreadable
    obtain ⟨d, hd⟩ := Option.isSome_iff_exists.1 (hbyte addr hreadable)
    exact ⟨⟨d, (memoryLookup_eq_some_iff hcells).1 hd⟩,
      fun e he => hread.trans ((memoryLookup_eq_some_iff hcells).2 he)⟩
  · intro hnot
    have hnone : s.mem.read addr = none := by
      by_cases hlt : addr < 65536
      · exact Memory.read_of_not_readable fun hreadable => hnot ⟨hlt, hreadable⟩
      · exact Memory.read_of_ge s.mem (Nat.not_lt.1 hlt)
    exact ⟨hnone, feedRange_cons_of_read_none hnone⟩

/-- Settles O19: both feeds of length zero are the feed over no address. -/
theorem zeroLengthFeedIsNoOp : Obligations.ZeroLengthFeedIsNoOp := by
  refine ⟨fun base s => ⟨fun f => ?_, fun t h => ?_, fun t h => ?_⟩, fun base s hs => ?_, fun r p => ⟨rfl, rfl⟩⟩
  · simp [exec_feedfwd_zero, exec_feedrev_zero]
  · cases (exec_feedfwd_zero base s).symm.trans h
    rfl
  · cases (exec_feedrev_zero base s).symm.trans h
    rfl
  · simp [exec_feedfwd_zero, exec_feedrev_zero, usesRecorded_active _ hs]

/-- Settles O24: `exec_next_cases` writes out the state each operation leaves. -/
theorem operationFrames : Obligations.OperationFrames := by
  intro i s t h
  refine ⟨exec_mem h, fun a => by rw [exec_mem h], ?_⟩
  rcases exec_next_cases h with ⟨seed, poly, rfl, rfl⟩ | ⟨r, op, rfl, hop⟩ | ⟨rfl, rfl⟩
  · exact ⟨rfl, rfl, fun _ => rfl, rfl, rfl⟩
  · refine ⟨rfl, rfl, fun hs => by simp [usesRecorded_active op hs], ?_⟩
    rcases hop with ⟨-, b, rfl⟩ | ⟨-, base, len, rfl⟩ | ⟨-, base, len, rfl⟩
    all_goals exact ⟨rfl, rfl, rfl⟩
  · exact ⟨rfl, rfl, fun hs => by simp [usesRecorded_active .getresult hs], rfl, rfl, rfl, rfl⟩

/-- Settles O42, from the rules of reading after a store, after `expose` and after `release`. -/
theorem hostActionsOnMemory : Obligations.HostActionsOnMemory := by
  refine ⟨fun s addr d => ?_, fun s addr => ?_, fun s addr => ?_, fun s w w' => rfl⟩
  · exact ⟨s.setMem (s.mem.write addr d), rfl, rfl, fun a => memoryLookup_insert _ a d _,
      Memory.read_write s.mem addr d, rfl⟩
  · refine ⟨s.setMem (s.mem.expose addr), rfl, fun a => mem_addressInsert _ _ _, fun a d hd => ?_, ?_,
      fun a ha => ?_, rfl⟩
    · rw [State.setMem_mem, Memory.expose_cells, memoryLookup_withByteAt]
      split
      · next heq => rw [← heq, hd, Option.getD_some]
      · exact hd
    · simp [Memory.read_expose]
    · simp [Memory.read_expose, ha]
  · refine ⟨s.setMem (s.mem.release addr), rfl, fun a => ?_, rfl, Memory.read_release s.mem addr, rfl⟩
    simp [and_comm]

/-- Settles O46: after power-on neither a byte nor a readable address is listed. -/
theorem powerOnMemoryCanonical : Obligations.PowerOnMemoryCanonical := reset_mem_wf

end Sys2Proof.Machine
end

section
/-! SUPPORT. Command words (`30_encoding.md`): the fields of a word, the decoder and the canonical encoding through
them, and the six statements about words alone. -/

namespace Sys2Proof

/-! ### The fields of a command word -/

theorem CommandWord.toNat_op (w : CommandWord) : (CommandWord.op w).toNat = w.toNat / 2 ^ 32 := by
  have := w.isLt
  rw [CommandWord.op, BitVec.extractLsb'_toNat, Nat.shiftRight_eq_div_pow]
  omega

theorem CommandWord.op_eq_iff (w : CommandWord) (k : BitVec 4) :
    CommandWord.op w = k ↔ w.toNat / 2 ^ 32 = k.toNat := by
  rw [← BitVec.toNat_inj, CommandWord.toNat_op]

theorem CommandWord.op_eq_ofNat (w : CommandWord) : CommandWord.op w = BitVec.ofNat 4 (w.toNat / 2 ^ 32) := by
  rw [← CommandWord.toNat_op, BitVec.ofNat_toNat, BitVec.setWidth_eq]

theorem CommandWord.a_eq_ofNat (w : CommandWord) : CommandWord.a w = BitVec.ofNat 16 (w.toNat / 2 ^ 16) := by
  apply BitVec.eq_of_toNat_eq
  simp [CommandWord.a, Nat.shiftRight_eq_div_pow]

theorem CommandWord.b_eq_ofNat (w : CommandWord) : CommandWord.b w = BitVec.ofNat 16 w.toNat := by
  apply BitVec.eq_of_toNat_eq
  simp [CommandWord.b]

theorem CommandWord.bLow_eq_ofNat (w : CommandWord) : CommandWord.bLow w = BitVec.ofNat 8 w.toNat := by
  apply BitVec.eq_of_toNat_eq
  simp [CommandWord.bLow, CommandWord.b]

/-- A command word is `op * 2^32 + a * 2^16 + b` (R50). -/
theorem CommandWord.toNat_eq_fields (w : CommandWord) : w.toNat =
    (CommandWord.op w).toNat * 2 ^ 32 + (CommandWord.a w).toNat * 2 ^ 16 + (CommandWord.b w).toNat := by
  rw [CommandWord.toNat_op, CommandWord.a_eq_ofNat, CommandWord.b_eq_ofNat, BitVec.toNat_ofNat, BitVec.toNat_ofNat]
  omega

/-- The three fields of a word given as such a number (R50). -/
theorem CommandWord.fields_of_toNat {w : CommandWord} {op : BitVec 4} {a b : Word}
    (h : w.toNat = op.toNat * 2 ^ 32 + a.toNat * 2 ^ 16 + b.toNat) :
    CommandWord.op w = op ∧ CommandWord.a w = a ∧ CommandWord.b w = b := by
  have ha := a.isLt
  have hb := b.isLt
  refine ⟨(CommandWord.op_eq_iff w op).2 (by omega), BitVec.eq_of_toNat_eq ?_, BitVec.eq_of_toNat_eq ?_⟩
  · rw [CommandWord.a_eq_ofNat, BitVec.toNat_ofNat]
    omega
  · rw [CommandWord.b_eq_ofNat, BitVec.toNat_ofNat]
    omega

theorem CommandWord.eq_iff_fields (v w : CommandWord) : v = w ↔
    CommandWord.op v = CommandWord.op w ∧ CommandWord.a v = CommandWord.a w ∧ CommandWord.b v = CommandWord.b w := by
  constructor
  · rintro rfl
    exact ⟨rfl, rfl, rfl⟩
  · rintro ⟨hop, ha, hb⟩
    apply BitVec.eq_of_toNat_eq
    rw [CommandWord.toNat_eq_fields v, CommandWord.toNat_eq_fields w, hop, ha, hb]

/-! ### Fields under a mask -/

theorem CommandWord.op_and (v w : CommandWord) :
    CommandWord.op (v &&& w) = CommandWord.op v &&& CommandWord.op w := BitVec.extractLsb'_and ..

theorem CommandWord.a_and (v w : CommandWord) :
    CommandWord.a (v &&& w) = CommandWord.a v &&& CommandWord.a w := BitVec.extractLsb'_and ..

theorem CommandWord.b_and (v w : CommandWord) :
    CommandWord.b (v &&& w) = CommandWord.b v &&& CommandWord.b w := BitVec.extractLsb'_and ..

theorem and_allOnes_op (k : BitVec 4) : k &&& 0xF#4 = k := BitVec.and_allOnes

theorem and_allOnes_word (v : Word) : v &&& 0xFFFF#16 = v := BitVec.and_allOnes

theorem toNat_setWidth_byte (t : Byte) : (t.setWidth 16 : Word).toNat = t.toNat :=
  BitVec.toNat_setWidth_of_le (by decide)

/-- A 16-bit value with its high byte cleared is the byte `t` exactly when its low byte is `t`. -/
theorem and_lowByte_eq_iff (v : Word) (t : Byte) : v &&& 0x00FF#16 = t.setWidth 16 ↔ v.extractLsb' 0 8 = t := by
  have hmask : (v &&& 0x00FF#16).toNat = v.toNat % 2 ^ 8 := by
    rw [BitVec.toNat_and]
    exact Nat.and_two_pow_sub_one_eq_mod v.toNat 8
  rw [← BitVec.toNat_inj, ← BitVec.toNat_inj, hmask, toNat_setWidth_byte, BitVec.extractLsb'_toNat,
    Nat.shiftRight_zero]

/-! ### The decoder -/

/-- The fields with which a word spells an operation (R51, R52). -/
def Spells (w : CommandWord) : Instr → Prop
  | .init seed poly => CommandWord.op w = 0x0#4 ∧ CommandWord.a w = seed ∧ CommandWord.b w = poly
  | .feedbit t => CommandWord.op w = 0x1#4 ∧ CommandWord.bLow w = t
  | .feedfwd base len => CommandWord.op w = 0x2#4 ∧ CommandWord.a w = base ∧ CommandWord.bLow w = len
  | .feedrev base len => CommandWord.op w = 0x3#4 ∧ CommandWord.a w = base ∧ CommandWord.bLow w = len
  | .getresult => CommandWord.op w = 0x4#4

theorem decode_of_spells {w : CommandWord} {i : Instr} (h : Spells w i) : decode w = .instr i := by
  cases i with
  | init seed poly =>
    obtain ⟨hop, rfl, rfl⟩ := h
    simp [decode, hop]
  | feedbit t =>
    obtain ⟨hop, rfl⟩ := h
    simp [decode, hop]
  | feedfwd base len =>
    obtain ⟨hop, rfl, rfl⟩ := h
    simp [decode, hop]
  | feedrev base len =>
    obtain ⟨hop, rfl, rfl⟩ := h
    simp [decode, hop]
  | getresult => simp [decode, show CommandWord.op w = 0x4#4 from h]

theorem spells_of_decode {w : CommandWord} {i : Instr} (h : decode w = .instr i) : Spells w i := by
  unfold decode at h
  split_ifs at h with h0 h1 h2 h3 h4 <;> cases h
  · exact ⟨h0, rfl, rfl⟩
  · exact ⟨h1, rfl⟩
  · exact ⟨h2, rfl, rfl⟩
  · exact ⟨h3, rfl, rfl⟩
  · exact h4

/-- The decoder reads an operation exactly from the words whose fields spell it (R59). -/
theorem decode_eq_instr_iff_spells (w : CommandWord) (i : Instr) : decode w = .instr i ↔ Spells w i :=
  ⟨spells_of_decode, decode_of_spells⟩

/-- The decoder answers `reserved` exactly at the values 0x5 to 0xF of `op` (R57). -/
theorem decode_eq_reserved_iff (w : CommandWord) (op : BitVec 4) :
    decode w = .reserved op ↔ CommandWord.op w = op ∧ 0x5 ≤ w.toNat / 2 ^ 32 := by
  have hcodes : 0x5 ≤ (CommandWord.op w).toNat ↔ CommandWord.op w ≠ 0x0#4 ∧ CommandWord.op w ≠ 0x1#4 ∧
      CommandWord.op w ≠ 0x2#4 ∧ CommandWord.op w ≠ 0x3#4 ∧ CommandWord.op w ≠ 0x4#4 := by
    bv_omega
  rw [← CommandWord.toNat_op]
  unfold decode
  split_ifs <;> simp_all

theorem decode_of_reserved {w : CommandWord} (h : 0x5 ≤ w.toNat / 2 ^ 32) :
    decode w = .reserved (BitVec.ofNat 4 (w.toNat / 2 ^ 32)) :=
  (decode_eq_reserved_iff w _).2 ⟨CommandWord.op_eq_ofNat w, h⟩

/-- A FEEDBIT word spells its low byte (R53). -/
theorem decode_feedbit_word {w : CommandWord} (h : w.toNat / 2 ^ 32 = 0x1) :
    decode w = .instr (.feedbit (BitVec.ofNat 8 w.toNat)) :=
  decode_of_spells ⟨(CommandWord.op_eq_iff w 0x1#4).2 h, CommandWord.bLow_eq_ofNat w⟩

/-- A 36-bit word is read alike through the table's numbering in whole bytes. -/
theorem decodeTableWord_of_decode {w : CommandWord} {i : Instr} (h : decode w = .instr i) :
    decodeTableWord 40 w.toNat = some i := by
  have hlt := w.isLt
  have hword : tableWord 40 w.toNat = some w := by
    rw [tableWord, Nat.mod_eq_of_lt (by omega), if_pos hlt, BitVec.ofNat_toNat, BitVec.setWidth_eq]
  simp [decodeTableWord, hword, h]

/-! ### The canonical encoding -/

/-- The `a` field of the canonical encoding (R60): zero where the operation ignores it. -/
def encodedA : Instr → Word
  | .init seed _ => seed
  | .feedbit _ => 0x0000#16
  | .feedfwd base _ => base
  | .feedrev base _ => base
  | .getresult => 0x0000#16

/-- The `b` field of the canonical encoding (R60): its high byte zero where the operation uses `b[7:0]` only. -/
def encodedB : Instr → Word
  | .init _ poly => poly
  | .feedbit t => t.setWidth 16
  | .feedfwd _ len => len.setWidth 16
  | .feedrev _ len => len.setWidth 16
  | .getresult => 0x0000#16

/-- The canonical encoding is `op * 2^32 + a * 2^16 + b` (R50, R60). -/
theorem toNat_encode (i : Instr) :
    (encode i).toNat = (opcode i).toNat * 2 ^ 32 + (encodedA i).toNat * 2 ^ 16 + (encodedB i).toNat := by
  have hop := (opcode i).isLt
  have ha := (encodedA i).isLt
  have hb := (encodedB i).isLt
  have hencode : encode i = BitVec.ofNat 36
      ((opcode i).toNat * 2 ^ 32 + (encodedA i).toNat * 2 ^ 16 + (encodedB i).toNat) := by
    cases i <;> simp [encode, opcode, encodedA, encodedB, toNat_setWidth_byte, -BitVec.toNat_setWidth]
  rw [hencode, BitVec.toNat_ofNat, Nat.mod_eq_of_lt (by omega)]

theorem op_encode (i : Instr) : CommandWord.op (encode i) = opcode i :=
  (CommandWord.fields_of_toNat (toNat_encode i)).1

theorem a_encode (i : Instr) : CommandWord.a (encode i) = encodedA i :=
  (CommandWord.fields_of_toNat (toNat_encode i)).2.1

theorem b_encode (i : Instr) : CommandWord.b (encode i) = encodedB i :=
  (CommandWord.fields_of_toNat (toNat_encode i)).2.2

theorem bLow_encode {i : Instr} {t : Byte} (h : encodedB i = t.setWidth 16) : CommandWord.bLow (encode i) = t := by
  rw [CommandWord.bLow, b_encode, h, BitVec.extractLsb'_setWidth_of_le (by decide), BitVec.extractLsb'_eq_self]

/-- Decoding the canonical encoding gives the operation back (R59, R60). -/
theorem decode_encode (i : Instr) : decode (encode i) = .instr i := by
  apply decode_of_spells
  cases i with
  | init seed poly => exact ⟨op_encode _, a_encode _, b_encode _⟩
  | feedbit t => exact ⟨op_encode _, bLow_encode rfl⟩
  | feedfwd base len => exact ⟨op_encode _, a_encode _, bLow_encode rfl⟩
  | feedrev base len => exact ⟨op_encode _, a_encode _, bLow_encode rfl⟩
  | getresult => exact op_encode _

/-! ### The used bits -/

/-- The bits of the `a` field that an operation uses (R56). -/
def usedA : Instr → Word
  | .init _ _ => 0xFFFF#16
  | .feedbit _ => 0x0000#16
  | .feedfwd _ _ => 0xFFFF#16
  | .feedrev _ _ => 0xFFFF#16
  | .getresult => 0x0000#16

/-- The bits of the `b` field that an operation uses (R56). -/
def usedB : Instr → Word
  | .init _ _ => 0xFFFF#16
  | .feedbit _ => 0x00FF#16
  | .feedfwd _ _ => 0x00FF#16
  | .feedrev _ _ => 0x00FF#16
  | .getresult => 0x0000#16

/-- Every operation uses the whole `op` field, and of the other two what R56 does not list. -/
theorem fields_usedBits (i : Instr) : CommandWord.op (usedBits i) = 0xF#4 ∧
    CommandWord.a (usedBits i) = usedA i ∧ CommandWord.b (usedBits i) = usedB i :=
  CommandWord.fields_of_toNat (by cases i <;> simp [usedBits, usedA, usedB])

theorem fields_and_usedBits (w : CommandWord) (i : Instr) :
    CommandWord.op (w &&& usedBits i) = CommandWord.op w ∧
    CommandWord.a (w &&& usedBits i) = CommandWord.a w &&& usedA i ∧
    CommandWord.b (w &&& usedBits i) = CommandWord.b w &&& usedB i := by
  obtain ⟨hop, ha, hb⟩ := fields_usedBits i
  rw [CommandWord.op_and, CommandWord.a_and, CommandWord.b_and, hop, ha, hb, and_allOnes_op]
  exact ⟨rfl, rfl, rfl⟩

/-- A word has the used bits of the canonical encoding exactly when it has its `op` and the used bits of the two other
fields. -/
theorem and_usedBits_eq_encode_iff (w : CommandWord) (i : Instr) : w &&& usedBits i = encode i ↔
    CommandWord.op w = opcode i ∧ CommandWord.a w &&& usedA i = encodedA i ∧
      CommandWord.b w &&& usedB i = encodedB i := by
  obtain ⟨hop, ha, hb⟩ := fields_and_usedBits w i
  rw [CommandWord.eq_iff_fields, hop, ha, hb, op_encode, a_encode, b_encode]

/-- A word spells an operation exactly when its used bits are those of the canonical encoding (R56): an operand is
either a whole field or the low byte of `b`. -/
theorem decode_eq_instr_iff (w : CommandWord) (i : Instr) :
    decode w = .instr i ↔ w &&& usedBits i = encode i := by
  rw [decode_eq_instr_iff_spells, and_usedBits_eq_encode_iff]
  cases i with
  | init seed poly => simp [Spells, opcode, usedA, usedB, encodedA, encodedB, and_allOnes_word]
  | feedbit t =>
    simp [Spells, CommandWord.bLow, opcode, usedA, usedB, encodedA, encodedB, and_lowByte_eq_iff]
  | feedfwd base len =>
    simp [Spells, CommandWord.bLow, opcode, usedA, usedB, encodedA, encodedB, and_allOnes_word, and_lowByte_eq_iff]
  | feedrev base len =>
    simp [Spells, CommandWord.bLow, opcode, usedA, usedB, encodedA, encodedB, and_allOnes_word, and_lowByte_eq_iff]
  | getresult => simp [Spells, opcode, usedA, usedB, encodedA, encodedB]

/-- The canonical encoding lies inside its used bits (R60). -/
theorem encode_and_not_usedBits (i : Instr) : encode i &&& ~~~ usedBits i = 0#36 := by
  rw [← (decode_eq_instr_iff (encode i) i).1 (decode_encode i), BitVec.and_assoc, BitVec.and_not_self]
  exact BitVec.and_zero

/-- The opcode table's mask leaves the `op` field, as GETRESULT's used bits do (R51). -/
theorem toNat_and_opMask (w : CommandWord) :
    (w &&& 0xF00000000#36).toNat = (CommandWord.op w).toNat * 2 ^ 32 := by
  obtain ⟨hop, ha, hb⟩ := fields_and_usedBits w .getresult
  have hmask : 0xF00000000#36 = usedBits .getresult := by rw [usedBits]
  rw [hmask, CommandWord.toNat_eq_fields, hop, ha, hb]
  simp [usedA, usedB]

/-- A word has a row's `match` under the mask exactly when its `op` is the row's (R51). -/
theorem and_opMask_eq_iff (w : CommandWord) (k : BitVec 4) :
    w &&& 0xF00000000#36 = BitVec.ofNat 36 (k.toNat * 2 ^ 32) ↔ CommandWord.op w = k := by
  have := k.isLt
  rw [← BitVec.toNat_inj, ← BitVec.toNat_inj, toNat_and_opMask, BitVec.toNat_ofNat]
  omega

/-! ### The statements -/

/-- Settles O1: `decode_encode`, and a command word fits the table's 40 bits. -/
theorem decodeEncodeRoundTrip : Obligations.DecodeEncodeRoundTrip :=
  fun i => ⟨decode_encode i, decodeTableWord_of_decode (decode_encode i)⟩

/-- Settles O4, field by field through `decode_eq_instr_iff`; the masks' complements are computed. -/
theorem ignoredBitsAreIgnored : Obligations.IgnoredBitsAreIgnored := by
  refine ⟨decode_eq_instr_iff, fun seed poly => ?_, fun t => ?_, fun base len => ⟨?_, ?_⟩, ?_,
    encode_and_not_usedBits⟩
  all_goals
    rw [usedBits]
    decide

/-- Settles O2: the fields read arithmetically spell the operation; two GETRESULT words differ in ignored bits. -/
theorem decoderOnEveryWord : Obligations.DecoderOnEveryWord := by
  refine ⟨fun w => ?_, ⟨0x400000000#36, 0x4DEADBEEF#36, by decide, by decide⟩, decode_encode⟩
  have hop : ∀ k : BitVec 4, w.toNat / 2 ^ 32 = k.toNat → CommandWord.op w = k :=
    fun k => (CommandWord.op_eq_iff w k).2
  have ha := CommandWord.a_eq_ofNat w
  have hb := CommandWord.b_eq_ofNat w
  have hbLow := CommandWord.bLow_eq_ofNat w
  exact ⟨fun h => decode_of_spells ⟨hop 0x0#4 h, ha, hb⟩, decode_feedbit_word,
    fun h => decode_of_spells ⟨hop 0x2#4 h, ha, hbLow⟩, fun h => decode_of_spells ⟨hop 0x3#4 h, ha, hbLow⟩,
    fun h => decode_of_spells (hop 0x4#4 h), decode_of_reserved⟩

/-- Settles O3: the mask compares `op` alone, and so does the decoder's choice of the row. -/
theorem rowSelectedByMask : Obligations.RowSelectedByMask := by
  intro w
  have hreserved : 0x500000000#36 ≤ w &&& 0xF00000000#36 ↔ ∃ op, decode w = .reserved op := by
    rw [BitVec.le_def, toNat_and_opMask, CommandWord.toNat_op, BitVec.toNat_ofNat]
    simp only [decode_eq_reserved_iff, exists_eq_left']
    omega
  refine ⟨(and_opMask_eq_iff w 0x0#4).trans ?_, (and_opMask_eq_iff w 0x1#4).trans ?_,
    (and_opMask_eq_iff w 0x2#4).trans ?_, (and_opMask_eq_iff w 0x3#4).trans ?_,
    (and_opMask_eq_iff w 0x4#4).trans ?_, hreserved⟩
  all_goals simp [decode_eq_instr_iff_spells, Spells]

/-- Settles O5: `toNat_encode` with each operation's code and fields; the five examples are computed. -/
theorem canonicalEncodingAsNumber : Obligations.CanonicalEncodingAsNumber := by
  refine ⟨fun seed poly => toNat_encode _, fun t => ?_, fun base len => ⟨?_, ?_⟩, by decide, by decide,
    by decide, by decide, by decide, by decide⟩
  all_goals
    rw [toNat_encode, opcode, encodedA, encodedB, toNat_setWidth_byte]
    rfl

/-- Settles O6, by running the decoder on the eight words. -/
theorem specWordsDecode : Obligations.SpecWordsDecode := by
  unfold Obligations.SpecWordsDecode
  decide

end Sys2Proof
end

section
/-! SUPPORT. Commands carried out (`30_encoding.md`): what a step makes of a command word, runs of FEEDBIT operations,
pending actions that no action looks at, and the five statements about them. -/

namespace Sys2Proof.Machine

/-! ### A command word at the port -/

theorem runCommand_of_instr {w : CommandWord} {i : Instr} (h : decode w = .instr i) (s : State) :
    runCommand w s = exec i s := by
  simp [runCommand, h]

theorem runCommand_of_reserved {w : CommandWord} {op : BitVec 4} (h : decode w = .reserved op) (s : State) :
    runCommand w s = .refused (.reservedOpcode op) := by
  simp [runCommand, h, refuseReserved]

/-- A command word next in turn is run in the state with it taken off the pending actions (R48). -/
theorem step_of_command {s : State} {w : CommandWord} {rest : List HostAction}
    (h : s.inputs = .command w :: rest) : step s = runCommand w (s.setInputs rest) :=
  step_of_cons h

/-! ### FEEDBIT operations -/

theorem exec_feedbit (t : Byte) (s : State) : exec (.feedbit t) s = .next { s with
    register := stepBit s.register s.polynomial t, faults := s.faults ++ usesRecorded .feedbit s } :=
  checkMode_next .feedbit s _

/-- A bit step looks at bit 7 of its argument alone (`41_feedbit.md` R69). -/
theorem stepBit_congr {t t' : Byte} (h : t.getLsbD 7 = t'.getLsbD 7) (r p : Word) :
    stepBit r p t = stepBit r p t' := by
  have hbit : inputBit t = inputBit t' := h
  rw [stepBit_eq, stepBit_eq, hbit]

theorem exec_feedbit_congr {t t' : Byte} (h : t.getLsbD 7 = t'.getLsbD 7) (s : State) :
    exec (.feedbit t) s = exec (.feedbit t') s := by
  rw [exec_feedbit, exec_feedbit, stepBit_congr h]

theorem getLsbD_and_topBitMask (t : Byte) : (t &&& 0x80#8).getLsbD 7 = t.getLsbD 7 := by
  simp

/-- Sequences of operations that do the same one by one do the same. -/
theorem execAll_map_congr {α : Type} {f g : α → Instr} (h : ∀ x s, exec (f x) s = exec (g x) s) (xs : List α)
    (s : State) : execAll (xs.map f) s = execAll (xs.map g) s := by
  induction xs generalizing s with
  | nil => rfl
  | cons x xs ih =>
    rw [List.map_cons, List.map_cons, execAll, execAll, h x s]
    cases exec (g x) s with
    | next t => exact ih t
    | fault f => rfl
    | refused r => rfl

/-- In Active mode a sequence of FEEDBIT operations feeds its bits into `register` (`45_properties.md` R91). -/
theorem execAll_feedbit_of_active {s : State} (hs : s.mode = .active) (ts : List Byte) :
    execAll (ts.map .feedbit) s = .next { s with register := feedBits s.register s.polynomial ts } := by
  induction ts generalizing s with
  | nil => rfl
  | cons t ts ih =>
    have hfirst : exec (.feedbit t) s = .next { s with register := stepBit s.register s.polynomial t } := by
      simp [exec_feedbit, usesRecorded_active .feedbit hs]
    rw [List.map_cons, execAll, hfirst]
    exact ih hs

/-- FEEDBYTE's commands are FEEDBIT operations over the successively shifted byte (R61). -/
theorem feedbyteCommands_eq_map (d : Byte) :
    feedbyteCommands d = ((List.range 8).map fun k => d <<< k).map .feedbit := by
  have hshift : ∀ k, BitVec.ofNat 8 (d.toNat * 2 ^ k) = d <<< k := fun k =>
    BitVec.eq_of_toNat_eq (by rw [BitVec.toNat_ofNat, BitVec.toNat_shiftLeft, Nat.shiftLeft_eq])
  simp [feedbyteCommands, hshift]

theorem getElem?_feedbyteCommands (d : Byte) {k : Nat} (hk : k < 8) :
    (feedbyteCommands d)[k]? = some (.feedbit (BitVec.ofNat 8 (d.toNat * 2 ^ k % 256))) := by
  have hmod : BitVec.ofNat 8 (d.toNat * 2 ^ k % 256) = BitVec.ofNat 8 (d.toNat * 2 ^ k) :=
    BitVec.eq_of_toNat_eq (by simp)
  simp [feedbyteCommands, hk, hmod]

/-! ### Pending actions -/

theorem setInputs_eq_self {s : State} {as : List HostAction} (h : s.inputs = as) : s.setInputs as = s := by
  subst h
  rfl

/-- An outcome with the pending actions of its next state replaced. -/
def withPending (as : List HostAction) : Host.Outcome State Fault Refusal → Host.Outcome State Fault Refusal
  | .next t => .next (t.setInputs as)
  | .fault f => .fault f
  | .refused r => .refused r

theorem checkMode_setInputs (op : Operation) (s : State) (as : List HostAction)
    (o : Host.Outcome State Fault Refusal) :
    checkMode op (s.setInputs as) (withPending as o) = withPending as (checkMode op s o) := by
  cases hs : s.mode with
  | active => simp [hs]
  | uninitialized =>
    have hs' : (s.setInputs as).mode = .uninitialized := hs
    rw [checkMode_uninitialized op _ hs', checkMode_uninitialized op _ hs]
    cases o with
    | next t => rfl
    | fault f => cases f <;> rfl
    | refused r => rfl

theorem feedRange_setInputs (addrs : List Nat) (s : State) (as : List HostAction) :
    feedRange addrs (s.setInputs as) = withPending as (feedRange addrs s) := by
  simp only [feedRange, State.setInputs_mem, State.setInputs_polynomial, State.setInputs_register]
  cases feedBytes s.mem s.polynomial addrs s.register <;> rfl

/-- No operation looks at the pending actions. -/
theorem exec_setInputs (i : Instr) (s : State) (as : List HostAction) :
    exec i (s.setInputs as) = withPending as (exec i s) := by
  cases i with
  | init seed poly => rfl
  | feedbit t => exact checkMode_setInputs .feedbit s as (.next (s.setRegister (stepBit s.register s.polynomial t)))
  | feedfwd base len =>
    have h := checkMode_setInputs .feedfwd s as (feedRange (ascending base len) s)
    rwa [← feedRange_setInputs] at h
  | feedrev base len =>
    have h := checkMode_setInputs .feedrev s as (feedRange (descending base len) s)
    rwa [← feedRange_setInputs] at h
  | getresult => exact checkMode_setInputs .getresult s as (.next (s.respond s.register))

/-- No action of the host looks at those after it. -/
theorem perform_setInputs (act : HostAction) (s : State) (as : List HostAction) :
    perform act (s.setInputs as) = withPending as (perform act s) := by
  cases act with
  | command w =>
    cases hw : decode w with
    | instr i =>
      have h := exec_setInputs i s as
      rwa [← runCommand_of_instr hw, ← runCommand_of_instr hw] at h
    | reserved op => simp [perform, runCommand_of_reserved hw, withPending]
  | write addr d => rfl
  | expose addr => rfl
  | release addr => rfl
  | reset => rfl
  | overlap first second => rfl

theorem perform_inputs {act : HostAction} {s t : State} (h : perform act s = .next t) : t.inputs = s.inputs := by
  have hsame := perform_setInputs act s s.inputs
  rw [setInputs_eq_self rfl, h, withPending, Host.Outcome.next.injEq] at hsame
  rw [hsame, State.setInputs_inputs]

/-! ### Runs of the machine -/

theorem core_run_succ_of_next {s t : State} (h : step s = .next t) (k : Nat) : core.run (k + 1) s = core.run k t := by
  have hstep : core.step s = .next t := h
  simp [Host.Core.run, hstep]

theorem core_run_succ_of_fault {s : State} {f : Fault} (h : step s = .fault f) (k : Nat) :
    core.run (k + 1) s = .fault f := by
  have hstep : core.step s = .fault f := h
  simp [Host.Core.run, hstep]

theorem core_run_succ_of_refused {s : State} {r : Refusal} (h : step s = .refused r) (k : Nat) :
    core.run (k + 1) s = .refused r := by
  have hstep : core.step s = .refused r := h
  simp [Host.Core.run, hstep]

theorem core_run_of_step_eq_self {s : State} (h : step s = .next s) (k : Nat) : core.run k s = .next s := by
  induction k with
  | zero => rfl
  | succ k ih => rw [core_run_succ_of_next h, ih]

/-- A run over pending actions performs them in turn (`70_reset_and_hazards.md` R126). -/
theorem core_run_setInputs (acts : List HostAction) {s : State} (hs : s.inputs = []) :
    core.run acts.length (s.setInputs acts) = runActions acts s := by
  induction acts generalizing s with
  | nil => exact congrArg Host.Outcome.next (setInputs_eq_self hs)
  | cons act rest ih =>
    have hstep : step (s.setInputs (act :: rest)) = withPending rest (perform act s) :=
      (step_of_cons (State.setInputs_inputs s (act :: rest))).trans (perform_setInputs act s rest)
    rw [List.length_cons, runActions]
    cases hp : perform act s with
    | next t =>
      rw [hp] at hstep
      exact (core_run_succ_of_next hstep rest.length).trans (ih ((perform_inputs hp).trans hs))
    | fault f =>
      rw [hp] at hstep
      exact core_run_succ_of_fault hstep rest.length
    | refused r =>
      rw [hp] at hstep
      exact core_run_succ_of_refused hstep rest.length

/-! ### The statements -/

/-- Settles O7: FEEDBYTE's commands feed the successively shifted byte bit by bit, and so does `StepByte`. -/
theorem pseudoInstructionsExpand : Obligations.PseudoInstructionsExpand := by
  refine ⟨rfl, fun seed => ?_, rfl, rfl, fun d => ⟨feedbyteCommands d, ?_, rfl,
    fun k hk => getElem?_feedbyteCommands d hk, fun s hs => ?_⟩⟩
  · have hlt : seed.toNat < 65536 := seed.isLt
    simp [assemble, AsmLine.wellFormed, hlt]
  · have hlt : d.toNat < 256 := d.isLt
    simp [assemble, AsmLine.wellFormed, hlt]
  · rw [feedbyteCommands_eq_map, execAll_feedbit_of_active hs, stepByte_eq_feedBits]

/-- Settles O8: such a word decodes to `reserved`. -/
theorem reservedCommandRefused : Obligations.ReservedCommandRefused :=
  fun _ _ _ hinputs hop =>
    (step_of_command hinputs).trans (runCommand_of_reserved (decode_of_reserved hop) _)

/-- Settles O9: a step on a command word is `runCommand`, which runs what the word decodes to. -/
theorem stepRunsDecodedCommand : Obligations.StepRunsDecodedCommand :=
  fun _ _ _ _ hinputs hdecode => (step_of_command hinputs).trans (runCommand_of_instr hdecode _)

/-- Settles O14: every clause comes down to `stepBit_congr`. -/
theorem onlyTopBitOfArgumentMatters : Obligations.OnlyTopBitOfArgumentMatters := by
  refine ⟨fun r p t => stepBit_congr (getLsbD_and_topBitMask t).symm r p, fun t t' s h => exec_feedbit_congr h s,
    fun w w' s hw hw' h => ?_, execAll_map_congr fun t => exec_feedbit_congr (getLsbD_and_topBitMask t).symm⟩
  rw [runCommand_of_instr (decode_feedbit_word hw), runCommand_of_instr (decode_feedbit_word hw')]
  apply exec_feedbit_congr
  simpa [BitVec.getLsbD_ofNat] using h

/-- Settles O44: a step performs the action taken off, which looks at none of the pending ones. -/
theorem runIsActionsInTurn : Obligations.RunIsActionsInTurn :=
  fun acts _ hs => ⟨core_run_setInputs acts hs, core_run_of_step_eq_self (step_of_nil hs)⟩

end Sys2Proof.Machine
end

section
/-! SUPPORT. INIT (`40_init.md`): what it does, the words that spell it, and the statement of the family. -/

namespace Sys2Proof

/-- A word with `op` 0x0 spells INIT of its two 16-bit fields (`30_encoding.md` R59). -/
theorem decode_init_word {w : CommandWord} (h : w.toNat / 2 ^ 32 = 0x0) :
    decode w = .instr (.init (BitVec.ofNat 16 (w.toNat / 2 ^ 16)) (BitVec.ofNat 16 w.toNat)) :=
  decode_of_spells
    ⟨(CommandWord.op_eq_iff w 0x0#4).2 h, CommandWord.a_eq_ofNat w, CommandWord.b_eq_ofNat w⟩

namespace Machine

/-- INIT loads its operands in either mode and records nothing (`40_init.md` R63). -/
theorem exec_init (seed poly : Word) (s : State) :
    exec (.init seed poly) s = .next (s.loadContext seed poly) := rfl

/-- Settles O10: `exec_init`, and a word with `op` 0x0 runs INIT of its fields. -/
theorem initLoadsSeedAndPolynomial : Obligations.InitLoadsSeedAndPolynomial :=
  ⟨exec_init, fun _ s hop => (runCommand_of_instr (decode_init_word hop) s).trans (exec_init _ _ s)⟩

end Machine

end Sys2Proof
end

section
/-! SUPPORT. FEEDBIT (`41_feedbit.md`): the bit step by its feedback, its masked input, and the four statements of the
family. -/

namespace Sys2Proof.Machine

/-! ### The bit step by its feedback -/

/-- The bit step as the shifted register, with the polynomial XORed in where the feedback is 1 (R68, form (a)). -/
theorem stepBit_eq_shl16_xor (r p : Word) (t : Byte) :
    stepBit r p t = shl16 r ^^^ (if topBit r ^^ inputBit t then p else 0x0000#16) := by
  rw [stepBit_eq]
  cases topBit r ^^ inputBit t
  · exact BitVec.xor_zero.symm
  · rfl

theorem stepBit_of_topBit_eq {r : Word} {t : Byte} (h : topBit r = inputBit t) (p : Word) :
    stepBit r p t = shl16 r := by
  simp [stepBit_eq_shl16_xor, h]

theorem stepBit_of_topBit_eq_not {r : Word} {t : Byte} (h : topBit r = !inputBit t) (p : Word) :
    stepBit r p t = shl16 r ^^^ p := by
  simp [stepBit_eq_shl16_xor, h]

/-! ### The value XORed into the register -/

/-- Step 1's value is bit 7 of the argument, moved to bit 15 (R67). -/
theorem shiftedArgument_and_topMask (t : Byte) :
    (t.setWidth 16 * 256#16) &&& 0x8000#16 = if inputBit t then 0x8000#16 else 0x0000#16 := by
  have hmul : t.setWidth 16 * 256#16 = t.setWidth 16 <<< 8 := (BitVec.shiftLeft_eq_mul_twoPow _ 8).symm
  have hmask : (0x8000#16 : Word) = BitVec.twoPow 16 15 := rfl
  rw [hmul, hmask, BitVec.and_twoPow]
  simp [inputBit]

/-- The shift discards a change of bit 15 (R67, the remark under the table). -/
theorem shl16_xor_topMask (r : Word) (b : Bool) :
    shl16 (r ^^^ if b then 0x8000#16 else 0x0000#16) = shl16 r := by
  have hmask : shl16 (if b then 0x8000#16 else 0x0000#16) = 0x0000#16 := by
    cases b <;> rfl
  calc shl16 (r ^^^ if b then 0x8000#16 else 0x0000#16)
      = shl16 r ^^^ shl16 (if b then 0x8000#16 else 0x0000#16) := BitVec.shiftLeft_xor_distrib ..
    _ = shl16 r := by rw [hmask, BitVec.xor_zero]

/-! ### Bits and numbers -/

theorem getLsbD_shl16_zero (r : Word) : (shl16 r).getLsbD 0 = false := by
  simp [shl16]

theorem getLsbD_shl16_of_pos (r : Word) {j : Nat} (hpos : 1 ≤ j) (hj : j ≤ 15) :
    (shl16 r).getLsbD j = r.getLsbD (j - 1) := by
  have hlt : j < 16 := by omega
  have hone : ¬ j < 1 := by omega
  simp only [shl16, BitVec.getLsbD_shiftLeft, hlt, hone, decide_true, decide_false, Bool.not_false, Bool.true_and]

theorem toNat_shl16 (r : Word) : (shl16 r).toNat = 2 * r.toNat % 65536 := by
  rw [shl16, BitVec.toNat_shiftLeft, Nat.shiftLeft_eq, Nat.mul_comm]

theorem getLsbD_ite_zero (fb : Bool) (p : Word) (j : Nat) :
    (if fb then p else 0x0000#16).getLsbD j = (fb && p.getLsbD j) := by
  cases fb <;> simp

theorem toNat_ite_zero (fb : Bool) (p : Word) : (if fb then p else 0x0000#16).toNat = fb.toNat * p.toNat := by
  cases fb <;> simp

/-! ### The operation -/

/-- In Active mode FEEDBIT writes `register` alone (R66). -/
theorem exec_feedbit_active (t : Byte) {s : State} (h : s.mode = .active) :
    exec (.feedbit t) s = .next { s with register := stepBit s.register s.polynomial t } := by
  simp [exec_feedbit, usesRecorded_active .feedbit h]

/-- A FEEDBIT word runs FEEDBIT of its low byte (R66, the encoding). -/
theorem runCommand_feedbit_word {w : CommandWord} (h : w.toNat / 2 ^ 32 = 0x1) (s : State) :
    runCommand w s = exec (.feedbit (BitVec.ofNat 8 w.toNat)) s :=
  runCommand_of_instr (decode_feedbit_word h) s

/-! ### The statements -/

/-- Settles O12: step 1's value is what the model XORs in, and the table's rows are the two outcomes of comparing the
top bit with the input bit. -/
theorem stepBitThreeSteps : Obligations.StepBitThreeSteps := by
  intro r p t
  rw [shiftedArgument_and_topMask]
  refine ⟨rfl, fun hr ht => ?_, fun hr ht => ?_, fun hr ht => ?_, fun hr ht => ?_, shl16_xor_topMask r _, by decide⟩
  · exact stepBit_of_topBit_eq (hr.trans ht.symm) p
  · exact stepBit_of_topBit_eq_not (hr.trans (congrArg not ht).symm) p
  · exact stepBit_of_topBit_eq_not (hr.trans (congrArg not ht).symm) p
  · exact stepBit_of_topBit_eq (hr.trans ht.symm) p

/-- Settles O13: form (a) is `stepBit_eq_shl16_xor`; the other two read its bits and its number off the two sides of
the XOR. -/
theorem stepBitEquivalentForms : Obligations.StepBitEquivalentForms := by
  intro r p t fb
  have hform : stepBit r p t = shl16 r ^^^ (if fb then p else 0x0000#16) := stepBit_eq_shl16_xor r p t
  have hbit : ∀ j, (stepBit r p t).getLsbD j = ((shl16 r).getLsbD j ^^ (fb && p.getLsbD j)) := fun j => by
    rw [hform, BitVec.getLsbD_xor, getLsbD_ite_zero]
  refine ⟨hform, ⟨?_, fun j hpos hj => ?_⟩, ?_⟩
  · rw [hbit, getLsbD_shl16_zero, Bool.false_xor]
  · rw [hbit, getLsbD_shl16_of_pos r hpos hj]
  · rw [hform, BitVec.toNat_xor, toNat_shl16, toNat_ite_zero]

/-- Settles O11: `exec_feedbit` in each mode, on the operation a FEEDBIT word spells. -/
theorem feedbitAdvancesOneBit : Obligations.FeedbitAdvancesOneBit := by
  refine ⟨fun t _ h => exec_feedbit_active t h, fun t s h => ?_, fun _ s hop => runCommand_feedbit_word hop s,
    fun s h hr hp => ?_⟩
  · rw [exec_feedbit, usesRecorded_uninitialized .feedbit h]
  · have hstep : stepBit 0xFFFF#16 0x1021#16 0x00#8 = 0xEFDF#16 := by decide
    calc runCommand 0x100000000#36 s
        = exec (.feedbit 0x00#8) s := runCommand_feedbit_word (by decide) s
      _ = .next { s with register := stepBit s.register s.polynomial 0x00#8 } := exec_feedbit_active _ h
      _ = .next { s with register := 0xEFDF#16 } := by rw [hr, hp, hstep]

/-- Settles O15: an all-zero register has nothing to shift out, a zero polynomial nothing to XOR in, and at 0x8000 the
feedback of a 1 cancels. -/
theorem stepBitSpecialValues : Obligations.StepBitSpecialValues := by
  refine ⟨fun p t ht => ?_, fun r t => ?_, fun p t ht => ?_⟩
  · exact stepBit_of_topBit_eq (r := 0x0000#16) ht.symm p
  · rw [stepBit_eq_shl16_xor, ite_self, BitVec.xor_zero]
  · exact stepBit_of_topBit_eq (r := 0x8000#16) ht.symm p

end Sys2Proof.Machine
end

section
/-! SUPPORT. FEEDFWD and FEEDREV (`42_feed_bytes.md`): the byte step bit by bit, the addresses of a range around one of
them, what a feed does in either mode, and the four statements of the family. -/

namespace Sys2Proof

/-- A word with `op` 0x2 spells FEEDFWD of its base and its low byte (`30_encoding.md` R59). -/
theorem decode_feedfwd_word {w : CommandWord} (h : w.toNat / 2 ^ 32 = 0x2) :
    decode w = .instr (.feedfwd (BitVec.ofNat 16 (w.toNat / 2 ^ 16)) (BitVec.ofNat 8 w.toNat)) :=
  decode_of_spells
    ⟨(CommandWord.op_eq_iff w 0x2#4).2 h, CommandWord.a_eq_ofNat w, CommandWord.bLow_eq_ofNat w⟩

/-- A word with `op` 0x3 spells FEEDREV of its base and its low byte (`30_encoding.md` R59). -/
theorem decode_feedrev_word {w : CommandWord} (h : w.toNat / 2 ^ 32 = 0x3) :
    decode w = .instr (.feedrev (BitVec.ofNat 16 (w.toNat / 2 ^ 16)) (BitVec.ofNat 8 w.toNat)) :=
  decode_of_spells
    ⟨(CommandWord.op_eq_iff w 0x3#4).2 h, CommandWord.a_eq_ofNat w, CommandWord.bLow_eq_ofNat w⟩

namespace Machine

/-! ### The byte step -/

theorem feedBits_eq_foldl (r p : Word) (ts : List Byte) :
    feedBits r p ts = ts.foldl (fun r t => stepBit r p t) r := by
  induction ts generalizing r with
  | nil => rfl
  | cons t ts ih => exact ih _

/-- The byte shifted `k` times, as the number of R72. -/
theorem ofNat_mul_pow_mod_eq_shiftLeft (d : Byte) (k : Nat) : BitVec.ofNat 8 (d.toNat * 2 ^ k % 256) = d <<< k :=
  BitVec.eq_of_toNat_eq (by simp [Nat.shiftLeft_eq])

theorem getLsbD_shiftLeft_seven (d : Byte) {k : Nat} (hk : k < 8) : (d <<< k).getLsbD 7 = d.getLsbD (7 - k) := by
  have hle : ¬ 7 < k := by omega
  simp only [BitVec.getLsbD_shiftLeft, hle, decide_false, Bool.not_false, Nat.reduceLT, decide_true, Bool.true_and]

/-! ### The addresses of a range -/

/-- The bytes listed for a range are what its addresses read as, in ascending order. -/
theorem map_read_ascending_of_getElem? {m : Memory} {base : Word} {len : Byte} {ds : List Byte}
    (hlen : ds.length = len.toNat) (h : ∀ i d, ds[i]? = some d → m.read (base.toNat + i) = some d) :
    (ascending base len).map m.read = ds.map some := by
  refine List.ext_getElem (by simp [hlen]) fun i _ hi => ?_
  have hi' : i < ds.length := by simpa using hi
  simpa [ascending, effectiveAddress] using h i ds[i] (List.getElem?_eq_getElem hi')

theorem map_read_descending_of_getElem? {m : Memory} {base : Word} {len : Byte} {ds : List Byte}
    (hlen : ds.length = len.toNat) (h : ∀ i d, ds[i]? = some d → m.read (base.toNat + i) = some d) :
    (descending base len).map m.read = ds.reverse.map some := by
  rw [descending, List.map_reverse, map_read_ascending_of_getElem? hlen h, List.map_reverse]

theorem pairwise_lt_ascending (base : Word) (len : Byte) : (ascending base len).Pairwise (· < ·) :=
  List.pairwise_map.2 (List.pairwise_lt_range.imp fun hij => Nat.add_lt_add_left hij _)

/-- The addresses of a range on either side of its byte `i` are those of the bytes before and after it. -/
theorem exists_ascending_eq_append {base : Word} {len : Byte} {i : Nat} (hi : i < len.toNat) :
    ∃ before after, ascending base len = before ++ (base.toNat + i) :: after ∧
      (∀ a ∈ before, ∃ j, j < i ∧ a = base.toNat + j) ∧
      ∀ a ∈ after, ∃ j, i < j ∧ j < len.toNat ∧ a = base.toNat + j := by
  have hmem : base.toNat + i ∈ ascending base len := mem_ascending.2 ⟨i, hi, rfl⟩
  obtain ⟨before, after, heq⟩ := List.append_of_mem hmem
  have hsorted := pairwise_lt_ascending base len
  rw [heq, List.pairwise_append, List.pairwise_cons] at hsorted
  obtain ⟨-, ⟨hafter, -⟩, hbefore⟩ := hsorted
  refine ⟨before, after, heq, fun a ha => ?_, fun a ha => ?_⟩
  · obtain ⟨j, -, rfl⟩ := mem_ascending.1 (show a ∈ ascending base len by simp [heq, ha])
    exact ⟨j, Nat.lt_of_add_lt_add_left (hbefore _ ha _ List.mem_cons_self), rfl⟩
  · obtain ⟨j, hj, rfl⟩ := mem_ascending.1 (show a ∈ ascending base len by simp [heq, ha])
    exact ⟨j, Nat.lt_of_add_lt_add_left (hafter _ ha), hj, rfl⟩

/-- A range of one byte has the same address in either order (`42_feed_bytes.md` R74). -/
theorem descending_one (base : Word) : descending base 1#8 = ascending base 1#8 := rfl

/-! ### What a feed does -/

/-- A checked feed over readable addresses puts `fwd` of their bytes into `register`, in either mode. -/
theorem checkedFeed_of_map_read {s : State} {addrs : List Nat} {ds : List Byte} (op : Operation)
    (h : addrs.map s.mem.read = ds.map some) :
    checkMode op s (feedRange addrs s) = .next { s with
      register := fwd s.register s.polynomial ds, faults := s.faults ++ usesRecorded op s } := by
  rw [feedRange, feedBytes_ok h]
  exact checkMode_next op s _

theorem feedRange_stop {s : State} {before after : List Nat} {a : Nat}
    (hb : ∀ b ∈ before, (s.mem.read b).isSome = true) (ha : s.mem.read a = none) :
    feedRange (before ++ a :: after) s = .fault (.boundsViolation a) := by
  rw [feedRange, feedBytes_stop hb ha]

/-- An ascending feed stops at the lowest unreadable address of its range (`42_feed_bytes.md` R77). -/
theorem feedRange_ascending_stop {base : Word} {len : Byte} {i : Nat} {s : State} (hi : i < len.toNat)
    (hbelow : ∀ j, j < i → (s.mem.read (base.toNat + j)).isSome = true)
    (hnone : s.mem.read (base.toNat + i) = none) :
    feedRange (ascending base len) s = .fault (.boundsViolation (base.toNat + i)) := by
  obtain ⟨before, after, heq, hbefore, -⟩ := exists_ascending_eq_append (base := base) hi
  rw [heq]
  refine feedRange_stop (fun a ha => ?_) hnone
  obtain ⟨j, hj, rfl⟩ := hbefore a ha
  exact hbelow j hj

/-- A descending feed stops at the highest unreadable address of its range (`42_feed_bytes.md` R77). -/
theorem feedRange_descending_stop {base : Word} {len : Byte} {i : Nat} {s : State} (hi : i < len.toNat)
    (habove : ∀ j, i < j → j < len.toNat → (s.mem.read (base.toNat + j)).isSome = true)
    (hnone : s.mem.read (base.toNat + i) = none) :
    feedRange (descending base len) s = .fault (.boundsViolation (base.toNat + i)) := by
  obtain ⟨before, after, heq, -, hafter⟩ := exists_ascending_eq_append (base := base) hi
  rw [descending, heq, List.reverse_append, List.reverse_cons, List.append_assoc]
  refine feedRange_stop (fun a ha => ?_) hnone
  obtain ⟨j, hij, hj, rfl⟩ := hafter a (List.mem_reverse.1 ha)
  exact habove j hij hj

/-! ### The operations -/

/-- FEEDFWD over readable bytes, in either mode (`42_feed_bytes.md` R73). -/
theorem exec_feedfwd_of_read {base : Word} {len : Byte} {ds : List Byte} {s : State} (hlen : ds.length = len.toNat)
    (h : ∀ i d, ds[i]? = some d → s.mem.read (base.toNat + i) = some d) :
    exec (.feedfwd base len) s = .next { s with
      register := fwd s.register s.polynomial ds, faults := s.faults ++ usesRecorded .feedfwd s } :=
  checkedFeed_of_map_read .feedfwd (map_read_ascending_of_getElem? hlen h)

/-- FEEDREV over readable bytes, in either mode (`42_feed_bytes.md` R74). -/
theorem exec_feedrev_of_read {base : Word} {len : Byte} {ds : List Byte} {s : State} (hlen : ds.length = len.toNat)
    (h : ∀ i d, ds[i]? = some d → s.mem.read (base.toNat + i) = some d) :
    exec (.feedrev base len) s = .next { s with
      register := fwd s.register s.polynomial ds.reverse, faults := s.faults ++ usesRecorded .feedrev s } :=
  checkedFeed_of_map_read .feedrev (map_read_descending_of_getElem? hlen h)

theorem exec_feedfwd_active (base : Word) (len : Byte) {s : State} (hs : s.mode = .active) :
    exec (.feedfwd base len) s = feedRange (ascending base len) s :=
  checkMode_active .feedfwd _ hs

theorem exec_feedrev_active (base : Word) (len : Byte) {s : State} (hs : s.mode = .active) :
    exec (.feedrev base len) s = feedRange (descending base len) s :=
  checkMode_active .feedrev _ hs

theorem exec_feedfwd_of_read_active {base : Word} {len : Byte} {ds : List Byte} {s : State} (hs : s.mode = .active)
    (hlen : ds.length = len.toNat) (h : ∀ i d, ds[i]? = some d → s.mem.read (base.toNat + i) = some d) :
    exec (.feedfwd base len) s = .next { s with register := fwd s.register s.polynomial ds } :=
  checkedFeed_of_readable hs (map_read_ascending_of_getElem? hlen h)

theorem exec_feedrev_of_read_active {base : Word} {len : Byte} {ds : List Byte} {s : State} (hs : s.mode = .active)
    (hlen : ds.length = len.toNat) (h : ∀ i d, ds[i]? = some d → s.mem.read (base.toNat + i) = some d) :
    exec (.feedrev base len) s = .next { s with register := fwd s.register s.polynomial ds.reverse } :=
  checkedFeed_of_readable hs (map_read_descending_of_getElem? hlen h)

/-- A FEEDFWD word runs FEEDFWD of its fields (R73, the encoding). -/
theorem runCommand_feedfwd_word {w : CommandWord} (h : w.toNat / 2 ^ 32 = 0x2) (s : State) :
    runCommand w s = exec (.feedfwd (BitVec.ofNat 16 (w.toNat / 2 ^ 16)) (BitVec.ofNat 8 w.toNat)) s :=
  runCommand_of_instr (decode_feedfwd_word h) s

/-- A FEEDREV word runs FEEDREV of its fields (R74, the encoding). -/
theorem runCommand_feedrev_word {w : CommandWord} (h : w.toNat / 2 ^ 32 = 0x3) (s : State) :
    runCommand w s = exec (.feedrev (BitVec.ofNat 16 (w.toNat / 2 ^ 16)) (BitVec.ofNat 8 w.toNat)) s :=
  runCommand_of_instr (decode_feedrev_word h) s

/-! ### The statements -/

/-- Settles O16: a byte step folds the bit step over the shifted byte, whose top bit after `k` shifts is bit
`7 - k`. -/
theorem stepByteFeedsTopBitFirst : Obligations.StepByteFeedsTopBitFirst := by
  intro r p d
  simp only [ofNat_mul_pow_mod_eq_shiftLeft]
  refine ⟨?_, fun k hk => getLsbD_shiftLeft_seven d hk⟩
  rw [stepByte_eq_feedBits, feedBits_eq_foldl, List.foldl_map]

/-- Settles O17: the bytes of a readable range are fed as its addresses read; the first unreadable index stops the feed,
and past the space that index is the one of address 65536. -/
theorem feedfwdFeedsAscending : Obligations.FeedfwdFeedsAscending := by
  refine ⟨fun _ _ _ _ hs hlen h => exec_feedfwd_of_read_active hs hlen h, fun base len ds s hs hlen h => ?_,
    fun base len i s hs hi hbelow hnone => ?_, fun base len s hs hpast hread => ?_, fun base s hs => ?_,
    fun _ s hop => runCommand_feedfwd_word hop s, fun s hs hr hp hread => ?_⟩
  · rw [exec_feedfwd_of_read hlen h, usesRecorded_uninitialized .feedfwd hs]
  · rw [exec_feedfwd_active base len hs, feedRange_ascending_stop hi hbelow hnone]
  · have hbase := base.isLt
    have htop : base.toNat + (65536 - base.toNat) = 65536 := by omega
    have hstop := feedRange_ascending_stop (base := base) (len := len) (i := 65536 - base.toNat) (s := s) (by omega)
      (fun j hj => hread _ (by omega) (by omega)) (Memory.read_of_ge _ (Nat.le_of_eq htop.symm))
    rw [exec_feedfwd_active base len hs, hstop, htop]
  · rw [exec_feedfwd_active base _ hs, exec_feedrev_active base _ hs, descending_one]
  · have hbytes : ∀ i d, [0x00#8][i]? = some d → s.mem.read ((0x0100#16).toNat + i) = some d := by
      simpa [List.getElem?_singleton] using hread
    have hdecode : decode 0x201000001#36 = .instr (.feedfwd 0x0100#16 1#8) := by decide
    have hfwd : fwd 0xFFFF#16 0x1021#16 [0x00#8] = 0xE1F0#16 := by decide
    rw [runCommand_of_instr hdecode, exec_feedfwd_of_read_active hs rfl hbytes, hr, hp, hfwd]

/-- Settles O18: the bytes of a readable range are fed from its last to its first; the last unreadable index stops the
feed, and past the space that is the last index of all. -/
theorem feedrevFeedsDescending : Obligations.FeedrevFeedsDescending := by
  refine ⟨fun _ _ _ _ hs hlen h => exec_feedrev_of_read_active hs hlen h, fun base len ds s hs hlen h => ?_,
    fun base len i s hs hi habove hnone => ?_, fun base len s hs hpast => ?_,
    fun _ s hop => runCommand_feedrev_word hop s, fun s hs hr hp hread0 hread1 => ?_⟩
  · rw [exec_feedrev_of_read hlen h, usesRecorded_uninitialized .feedrev hs]
  · rw [exec_feedrev_active base len hs, feedRange_descending_stop hi habove hnone]
  · have hbase := base.isLt
    have hlast : base.toNat + (len.toNat - 1) = base.toNat + len.toNat - 1 := by omega
    have hge : 65536 ≤ base.toNat + (len.toNat - 1) := by omega
    have hstop := feedRange_descending_stop (base := base) (len := len) (i := len.toNat - 1) (s := s) (by omega)
      (fun j hij hj => by omega) (Memory.read_of_ge _ hge)
    rw [exec_feedrev_active base len hs, hstop, hlast]
  · have hbytes : ∀ i d, [0x02#8, 0x01#8][i]? = some d → s.mem.read ((0x0200#16).toNat + i) = some d := by
      intro i d hd
      match i with
      | 0 => exact hread0.trans hd
      | 1 => exact hread1.trans hd
      | i + 2 => cases hd
    have hreverse : [0x02#8, 0x01#8].reverse = [0x01#8, 0x02#8] := rfl
    have hrev : fwd 0xFFFF#16 0x1021#16 [0x01#8, 0x02#8] = 0x0E7C#16 := by
      have hfirst : stepByte 0xFFFF#16 0x1021#16 0x01#8 = 0xF1D1#16 := by decide
      rw [fwd_cons, hfirst]
      decide
    have hfwd : fwd 0xFFFF#16 0x1021#16 [0x02#8, 0x01#8] = 0x6B4C#16 := by
      have hfirst : stepByte 0xFFFF#16 0x1021#16 0x02#8 = 0xC1B2#16 := by decide
      rw [fwd_cons, hfirst]
      decide
    have hdecodeRev : decode 0x302000002#36 = .instr (.feedrev 0x0200#16 2#8) := by decide
    have hdecodeFwd : decode 0x202000002#36 = .instr (.feedfwd 0x0200#16 2#8) := by decide
    constructor
    · rw [runCommand_of_instr hdecodeRev, exec_feedrev_of_read_active hs rfl hbytes, hreverse, hr, hp, hrev]
    · rw [runCommand_of_instr hdecodeFwd, exec_feedfwd_of_read_active hs rfl hbytes, hr, hp, hfwd]

/-- Settles O53: a feed over no address adds to the record alone. -/
theorem zeroLengthBeforeInit : Obligations.ZeroLengthBeforeInit := by
  intro base s hs
  rw [exec_feedfwd_zero, exec_feedrev_zero, usesRecorded_uninitialized _ hs, usesRecorded_uninitialized _ hs]
  exact ⟨rfl, rfl⟩

end Machine

end Sys2Proof
end

section
/-! SUPPORT. GETRESULT (`43_getresult.md`): what it does in either mode, the words that spell it, and the statement of
the family. -/

namespace Sys2Proof

/-- A word with `op` 0x4 spells GETRESULT, whatever its other bits (`30_encoding.md` R59). -/
theorem decode_getresult_word {w : CommandWord} (h : w.toNat / 2 ^ 32 = 0x4) : decode w = .instr .getresult :=
  decode_of_spells ((CommandWord.op_eq_iff w 0x4#4).2 h)

namespace Machine

/-! ### The operation -/

theorem exec_getresult (s : State) : exec .getresult s = .next { s with
    responses := s.responses ++ [s.register], faults := s.faults ++ usesRecorded .getresult s } :=
  checkMode_next .getresult s _

/-- In Active mode GETRESULT delivers `register` and changes nothing else (R79). -/
theorem exec_getresult_active {s : State} (h : s.mode = .active) :
    exec .getresult s = .next { s with responses := s.responses ++ [s.register] } := by
  simp [exec_getresult, usesRecorded_active .getresult h]

/-- A GETRESULT word runs GETRESULT (R79, the encoding). -/
theorem runCommand_getresult_word {w : CommandWord} (h : w.toNat / 2 ^ 32 = 0x4) (s : State) :
    runCommand w s = exec .getresult s :=
  runCommand_of_instr (decode_getresult_word h) s

/-! ### Operations in a row -/

/-- An operation with a next state hands that state to the operations after it. -/
theorem execAll_cons_of_next {i : Instr} {s t : State} (h : exec i s = .next t) (rest : List Instr) :
    execAll (i :: rest) s = execAll rest t := by
  simp [execAll, h]

/-- A GETRESULT in Active mode on its own delivers `register`. -/
theorem execAll_getresult_active {s : State} (h : s.mode = .active) :
    execAll [.getresult] s = .next { s with responses := s.responses ++ [s.register] } :=
  execAll_cons_of_next (exec_getresult_active h) []

/-! ### The statement -/

/-- Settles O20: `exec_getresult` in each mode, on the operation a GETRESULT word spells; INIT, and a feed after it,
leave Active mode with the value to deliver in `register`. -/
theorem getresultRespondsRegister : Obligations.GetresultRespondsRegister := by
  refine ⟨fun _ h => exec_getresult_active h, fun s h => ?_, fun _ s hop => runCommand_getresult_word hop s,
    fun seed poly s => ?_, fun base s hread => ?_⟩
  · rw [exec_getresult, usesRecorded_uninitialized .getresult h]
  · rw [execAll_cons_of_next (exec_init seed poly s), execAll_getresult_active rfl]
    exact ⟨_, rfl, rfl⟩
  · have hbytes : ∀ i d, [0x00#8][i]? = some d → s.mem.read (base.toNat + i) = some d := by
      simpa [List.getElem?_singleton] using hread
    have hfeed := exec_feedfwd_of_read_active (base := base) (len := 1#8) (ds := [0x00#8])
      (s := s.loadContext 0xFFFF#16 0x1021#16) rfl rfl hbytes
    have hfwd : fwd 0xFFFF#16 0x1021#16 [0x00#8] = 0xE1F0#16 := by decide
    rw [State.loadContext_register, State.loadContext_polynomial, hfwd] at hfeed
    rw [execAll_cons_of_next (exec_init _ _ s), execAll_cons_of_next hfeed, execAll_getresult_active rfl]
    exact ⟨_, rfl, rfl⟩

end Machine

end Sys2Proof
end

section
/-! SUPPORT. Determinism (`45_properties.md` R81, R87, R96): what a run does in a state with another past and another
memory, and the three statements that two runs agree. -/

namespace Sys2Proof.Machine

/-! ### A state with another past -/

/-- An outcome with its next state changed by `g`. -/
def mapNext (g : State → State) : Host.Outcome State Fault Refusal → Host.Outcome State Fault Refusal
  | .next t => .next (g t)
  | .fault f => .fault f
  | .refused r => .refused r

@[simp] theorem mapNext_next (g : State → State) (t : State) : mapNext g (.next t) = .next (g t) := rfl

@[simp] theorem mapNext_fault (g : State → State) (f : Fault) : mapNext g (.fault f) = .fault f := rfl

@[simp] theorem mapNext_refused (g : State → State) (r : Refusal) : mapNext g (.refused r) = .refused r := rfl

/-- The block of `s` over the memory `m`, in a run with the past of `p`: answered and recorded after what `p` has
answered and recorded, with the pending actions and the reset count of `p`. -/
def State.inRunOf (p : State) (m : Memory) (s : State) : State :=
  { s with
    mem := m
    responses := p.responses ++ s.responses
    inputs := p.inputs
    faults := p.faults ++ s.faults
    resets := p.resets }

/-- The block and its memory with nothing answered, pending, recorded or counted. -/
def State.withoutPast (s : State) : State :=
  { s with responses := [], inputs := [], faults := [], resets := 0 }

theorem inRunOf_withoutPast (s : State) : s.inRunOf s.mem s.withoutPast = s := by
  simp [State.inRunOf, State.withoutPast]

/-- Two states of the same block differ in their memories and their pasts alone. -/
theorem inRunOf_withoutPast_of_block_eq {s s' : State} (hr : s.register = s'.register)
    (hp : s.polynomial = s'.polynomial) (hm : s.mode = s'.mode) : s'.inRunOf s'.mem s.withoutPast = s' := by
  simp [State.inRunOf, State.withoutPast, hr, hp, hm]

/-! ### An operation in a state with another past -/

/-- The addresses an operation reads, in feeding order (`20_memory.md` R39). -/
def fedAddresses : Instr → List Nat
  | .feedfwd base len => ascending base len
  | .feedrev base len => descending base len
  | _ => []

theorem checkMode_inRunOf (op : Operation) (p : State) (m : Memory) (s : State)
    (o : Host.Outcome State Fault Refusal) :
    checkMode op (p.inRunOf m s) (mapNext (p.inRunOf m) o) = mapNext (p.inRunOf m) (checkMode op s o) := by
  have hmode : (p.inRunOf m s).mode = s.mode := rfl
  cases hs : s.mode with
  | active => rw [checkMode_active op _ (hmode.trans hs), checkMode_active op _ hs]
  | uninitialized =>
    rw [checkMode_uninitialized op _ (hmode.trans hs), checkMode_uninitialized op _ hs]
    cases o with
    | next t => simp [State.inRunOf, State.record]
    | fault f => cases f <;> rfl
    | refused r => rfl

theorem feedRange_inRunOf {addrs : List Nat} {m : Memory} {s : State}
    (h : ∀ a ∈ addrs, m.read a = s.mem.read a) (p : State) :
    feedRange addrs (p.inRunOf m s) = mapNext (p.inRunOf m) (feedRange addrs s) := by
  have hfeed : feedBytes m s.polynomial addrs s.register = feedBytes s.mem s.polynomial addrs s.register :=
    feedBytes_congr h _ _
  rcases feedRange_cases addrs s with ⟨r, hr, he⟩ | ⟨a, ha, he⟩
  · rw [he, feedRange]
    simp only [State.inRunOf, hfeed, hr]
    rfl
  · rw [he, feedRange]
    simp only [State.inRunOf, hfeed, ha]
    rfl

theorem checkedFeed_inRunOf (op : Operation) {addrs : List Nat} {m : Memory} {s : State}
    (h : ∀ a ∈ addrs, m.read a = s.mem.read a) (p : State) :
    checkMode op (p.inRunOf m s) (feedRange addrs (p.inRunOf m s)) =
      mapNext (p.inRunOf m) (checkMode op s (feedRange addrs s)) := by
  rw [feedRange_inRunOf h, checkMode_inRunOf]

/-- An operation depends on `register`, `polynomial`, `mode` and the bytes it reads, and on nothing else
(`10_state.md` R26, `45_properties.md` R81). -/
theorem exec_inRunOf {i : Instr} {m : Memory} {s : State} (h : ∀ a ∈ fedAddresses i, m.read a = s.mem.read a)
    (p : State) : exec i (p.inRunOf m s) = mapNext (p.inRunOf m) (exec i s) := by
  cases i with
  | init seed poly => rfl
  | feedbit t =>
    exact checkMode_inRunOf .feedbit p m s (.next (s.setRegister (stepBit s.register s.polynomial t)))
  | feedfwd base len => exact checkedFeed_inRunOf .feedfwd h p
  | feedrev base len => exact checkedFeed_inRunOf .feedrev h p
  | getresult =>
    have hrespond : (p.inRunOf m s).respond s.register = p.inRunOf m (s.respond s.register) := by
      simp [State.inRunOf, State.respond]
    have hcheck := checkMode_inRunOf .getresult p m s (.next (s.respond s.register))
    rwa [mapNext_next, ← hrespond] at hcheck

/-- Operations in a row depend on the block and the bytes they read (`45_properties.md` R81). -/
theorem execAll_inRunOf {cmds : List Instr} {m : Memory} {s : State}
    (h : ∀ i ∈ cmds, ∀ a ∈ fedAddresses i, m.read a = s.mem.read a) (p : State) :
    execAll cmds (p.inRunOf m s) = mapNext (p.inRunOf m) (execAll cmds s) := by
  induction cmds generalizing s with
  | nil => rfl
  | cons i rest ih =>
    rw [execAll, execAll, exec_inRunOf (h i List.mem_cons_self) p]
    cases hi : exec i s with
    | next t =>
      have hrest : ∀ j ∈ rest, ∀ a ∈ fedAddresses j, m.read a = t.mem.read a := by
        rw [exec_mem hi]
        exact fun j hj => h j (List.mem_cons_of_mem i hj)
      exact ih hrest
    | fault f => rfl
    | refused r => rfl

/-- No sequence of operations is refused. -/
theorem execAll_ne_refused (cmds : List Instr) (s : State) (r : Refusal) : execAll cmds s ≠ .refused r := by
  induction cmds generalizing s with
  | nil => simp [execAll]
  | cons i rest ih =>
    rw [execAll]
    cases hi : exec i s with
    | next t => exact ih t
    | fault f => simp
    | refused r' => exact absurd hi (exec_ne_refused i s r')

/-! ### A run of the host's actions in a state with another past -/

/-- The state `s` in a run with the past of `p`, over its own memory. -/
def State.afterPastOf (p s : State) : State := p.inRunOf s.mem s

/-- No action of the host but a reset, whose fresh values go by the count of resets, looks at the past. -/
theorem perform_afterPastOf {act : HostAction} (hact : act ≠ .reset) (p s : State) :
    perform act (p.afterPastOf s) = mapNext p.afterPastOf (perform act s) := by
  cases act with
  | command w =>
    cases hw : decode w with
    | instr i =>
      change runCommand w _ = mapNext _ (runCommand w s)
      rw [runCommand_of_instr hw, runCommand_of_instr hw, State.afterPastOf, exec_inRunOf (fun _ _ => rfl)]
      cases hi : exec i s with
      | next t => rw [mapNext_next, mapNext_next, State.afterPastOf, exec_mem hi]
      | fault f => rfl
      | refused r => rfl
    | reserved op => simp [perform, runCommand_of_reserved hw]
  | write addr d => rfl
  | expose addr => rfl
  | release addr => rfl
  | reset => exact absurd rfl hact
  | overlap first second => rfl

theorem runActions_afterPastOf {acts : List HostAction} (hacts : ∀ act ∈ acts, act ≠ .reset) (p s : State) :
    runActions acts (p.afterPastOf s) = mapNext p.afterPastOf (runActions acts s) := by
  induction acts generalizing s with
  | nil => rfl
  | cons act rest ih =>
    rw [runActions, runActions, perform_afterPastOf (hacts act List.mem_cons_self)]
    cases perform act s with
    | next t => exact ih (fun a ha => hacts a (List.mem_cons_of_mem act ha)) t
    | fault f => rfl
    | refused r => rfl

/-- In Active mode no action but a reset adds to the record of faults (`60_exceptions.md` R103). -/
theorem perform_keeps_faults {act : HostAction} {s t : State} (hact : act ≠ .reset) (hs : s.mode = .active)
    (h : perform act s = .next t) : t.faults = s.faults := by
  rcases perform_next_cases h with ⟨w, i, -, -, hexec⟩ | ⟨addr, d, -, rfl⟩ | ⟨addr, -, rfl⟩ | ⟨addr, -, rfl⟩ |
    ⟨hreset, -⟩
  · rcases exec_next_cases hexec with ⟨seed, poly, -, rfl⟩ | ⟨r, op, rfl, -⟩ | ⟨-, rfl⟩ <;>
      simp [usesRecorded_active _ hs]
  · rfl
  · rfl
  · rfl
  · exact absurd hreset hact

theorem runActions_keeps_faults {acts : List HostAction} {s t : State} (hacts : ∀ act ∈ acts, act ≠ .reset)
    (hs : s.mode = .active) (h : runActions acts s = .next t) : t.faults = s.faults := by
  induction acts generalizing s with
  | nil =>
    cases h
    rfl
  | cons act rest ih =>
    obtain ⟨u, hperform, hrun⟩ := runActions_cons_next h
    have hact := hacts act List.mem_cons_self
    calc t.faults = u.faults :=
          ih (fun a ha => hacts a (List.mem_cons_of_mem act ha)) (perform_keeps_active hact hs hperform) hrun
      _ = s.faults := perform_keeps_faults hact hs hperform

theorem runActions_append_of_next {xs : List HostAction} {s m : State} (h : runActions xs s = .next m)
    (ys : List HostAction) : runActions (xs ++ ys) s = runActions ys m := by
  induction xs generalizing s with
  | nil =>
    cases h
    rfl
  | cons act rest ih =>
    obtain ⟨u, hperform, hrun⟩ := runActions_cons_next h
    rw [List.cons_append, runActions, hperform]
    exact ih hrun

/-- A GETRESULT ahead of a run in Active mode delivers `register` and hands on all else (R79). -/
theorem runActions_getresult_cons {w : CommandWord} {m : State} (hw : decode w = .instr .getresult)
    (hm : m.mode = .active) (ys : List HostAction) :
    runActions (.command w :: ys) m = runActions ys { m with responses := m.responses ++ [m.register] } := by
  have hperform : perform (.command w) m = .next { m with responses := m.responses ++ [m.register] } :=
    (runCommand_of_instr hw m).trans (exec_getresult_active hm)
  rw [runActions, hperform]

/-! ### The statements -/

/-- Settles O27: both runs are the run of the block without its past, put back over each memory and after each past. -/
theorem operationsDependOnTheirReadsOnly : Obligations.OperationsDependOnTheirReadsOnly := by
  intro cmds s s' hr hp hm hreads
  have hfed : ∀ i ∈ cmds, ∀ a ∈ fedAddresses i, s'.mem.read a = s.withoutPast.mem.read a := by
    intro i hi a ha
    cases i with
    | init | feedbit | getresult => cases ha
    | feedfwd base len =>
      obtain ⟨k, hk, rfl⟩ := mem_ascending.1 ha
      exact (hreads base len (.inl hi) k hk).symm
    | feedrev base len =>
      obtain ⟨k, hk, rfl⟩ := mem_descending.1 ha
      exact (hreads base len (.inr hi) k hk).symm
  have hrun := execAll_inRunOf (cmds := cmds) (m := s.mem) (s := s.withoutPast) (fun _ _ _ _ => rfl) s
  have hrun' := execAll_inRunOf hfed s'
  rw [inRunOf_withoutPast] at hrun
  rw [inRunOf_withoutPast_of_block_eq hr hp hm] at hrun'
  rw [hrun, hrun']
  cases hcmds : execAll cmds s.withoutPast with
  | next t => exact ⟨rfl, rfl, rfl, ⟨t.responses, rfl, rfl⟩, t.faults, rfl, rfl⟩
  | fault f => rfl
  | refused r => exact absurd hcmds (execAll_ne_refused cmds _ r)

/-- Settles O32: after the INIT both runs are that of one block without its past, which in Active mode records no
fault. -/
theorem initDiscardsHistory : Obligations.InitDiscardsHistory := by
  intro seed poly acts s s' hmem hacts
  refine ⟨_, _, exec_init seed poly s, exec_init seed poly s', ⟨rfl, rfl, rfl⟩, ⟨rfl, rfl, rfl⟩, ?_⟩
  have hblock : s.loadContext seed poly = s.afterPastOf (s.loadContext seed poly).withoutPast :=
    (inRunOf_withoutPast (s.loadContext seed poly)).symm
  have hblock' : s'.loadContext seed poly = s'.afterPastOf (s.loadContext seed poly).withoutPast := by
    simp [State.afterPastOf, State.inRunOf, State.withoutPast, State.loadContext, hmem]
  rw [hblock, hblock', runActions_afterPastOf hacts, runActions_afterPastOf hacts]
  cases hrun : runActions acts (s.loadContext seed poly).withoutPast with
  | next u =>
    have hfaults : u.faults = [] := runActions_keeps_faults hacts rfl hrun
    simp [State.afterPastOf, State.inRunOf, hfaults]
  | fault f => rfl
  | refused r => rfl

/-- Settles O39: with the GETRESULT and without it the rest of the run is that of one block without its past. -/
theorem getresultIsTransparent : Obligations.GetresultIsTransparent := by
  refine ⟨fun xs ys w s m hw hacts hxs hm => ?_, fun seed poly s s' =>
    ⟨_, _, exec_init seed poly s, exec_init seed poly s', rfl, rfl, rfl⟩⟩
  rw [runActions_append_of_next hxs, runActions_append_of_next hxs, runActions_getresult_cons hw hm]
  have hrun := runActions_afterPastOf hacts m m.withoutPast
  have hrun' := runActions_afterPastOf hacts { m with responses := m.responses ++ [m.register] } m.withoutPast
  have hblock : m.afterPastOf m.withoutPast = m := inRunOf_withoutPast m
  have hblock' : State.afterPastOf { m with responses := m.responses ++ [m.register] } m.withoutPast =
      { m with responses := m.responses ++ [m.register] } :=
    inRunOf_withoutPast { m with responses := m.responses ++ [m.register] }
  rw [hblock] at hrun
  rw [hblock'] at hrun'
  rw [hrun, hrun']
  cases runActions ys m.withoutPast with
  | next t => exact ⟨t.responses, rfl, by simp [State.afterPastOf, State.inRunOf]⟩
  | fault f => rfl
  | refused r => rfl

end Sys2Proof.Machine
end

section
/-! SUPPORT. Laws over sequences (`45_properties.md` R83 to R95): bytes as bits, splits, linearity, steps without
feedback and steps that can be undone, and the statements that follow from them. -/

namespace Sys2Proof.Machine

/-! ### Bytes as bits -/

/-- The eight FEEDBIT arguments of a byte, bit 7 first (`42_feed_bytes.md` R72). -/
def byteBits (d : Byte) : List Byte := (List.range 8).map fun k => d <<< k

theorem length_byteBits (d : Byte) : (byteBits d).length = 8 := by
  simp [byteBits]

theorem stepByte_eq_feedBits_byteBits (r p : Word) (d : Byte) : stepByte r p d = feedBits r p (byteBits d) :=
  stepByte_eq_feedBits r p d

theorem fwd_eq_foldl (r p : Word) (ds : List Byte) : fwd r p ds = ds.foldl (fun r d => stepByte r p d) r := by
  induction ds generalizing r with
  | nil => rfl
  | cons d ds ih => exact ih _

theorem fwd_eq_feedBits (r p : Word) (ds : List Byte) : fwd r p ds = feedBits r p (ds.flatMap byteBits) := by
  induction ds generalizing r with
  | nil => rfl
  | cons d ds ih => rw [fwd_cons, List.flatMap_cons, feedBits_append, ih, stepByte_eq_feedBits_byteBits]

theorem length_flatMap_byteBits (ds : List Byte) : (ds.flatMap byteBits).length = 8 * ds.length := by
  induction ds with
  | nil => rfl
  | cons d ds ih =>
    rw [List.flatMap_cons, List.length_append, length_byteBits, ih, List.length_cons]
    omega

/-- Single bits are fed alike when they agree in the bit FEEDBIT looks at. -/
theorem feedBits_map_congr {α : Type} {f g : α → Byte} {ks : List α}
    (h : ∀ k ∈ ks, (f k).getLsbD 7 = (g k).getLsbD 7) (r p : Word) :
    feedBits r p (ks.map f) = feedBits r p (ks.map g) := by
  induction ks generalizing r with
  | nil => rfl
  | cons k ks ih =>
    rw [List.map_cons, List.map_cons, feedBits_cons, feedBits_cons, stepBit_congr (h k List.mem_cons_self)]
    exact ih (fun j hj => h j (List.mem_cons_of_mem k hj)) _

/-- The FEEDBIT argument of a single bit, as the assembler writes it (`30_encoding.md` R61), carries that bit. -/
theorem getLsbD_ite_topBit (b : Bool) : (if b then 0x80#8 else 0x00#8 : Byte).getLsbD 7 = b := by
  cases b <;> rfl

/-- In Active mode eight FEEDBIT operations that carry the bits of a byte feed the byte (R83). -/
theorem execAll_feedbit_byte {s : State} (hs : s.mode = .active) {d : Byte} {f : Nat → Byte}
    (hf : ∀ k ∈ List.range 8, (d <<< k).getLsbD 7 = (f k).getLsbD 7) :
    execAll ((List.range 8).map fun k => .feedbit (f k)) s =
      .next { s with register := stepByte s.register s.polynomial d } := by
  have hmap : ((List.range 8).map fun k => Instr.feedbit (f k)) = ((List.range 8).map f).map .feedbit :=
    List.map_map.symm
  rw [hmap, execAll_feedbit_of_active hs, ← feedBits_map_congr hf, ← stepByte_eq_feedBits]

/-! ### Splits -/

theorem fwd_append (r p : Word) (xs ys : List Byte) : fwd r p (xs ++ ys) = fwd (fwd r p xs) p ys := by
  simp only [fwd_eq_foldl, List.foldl_append]

/-- In Active mode two feeds in a row are the feed over both lists of addresses. -/
theorem execAll_feeds {i j : Instr} {as bs : List Nat} {s : State} (hs : s.mode = .active)
    (hi : ∀ u : State, u.mode = .active → exec i u = feedRange as u)
    (hj : ∀ u : State, u.mode = .active → exec j u = feedRange bs u) :
    execAll [i, j] s = feedRange (as ++ bs) s := by
  have happend := feedBytes_append s.mem s.polynomial as bs s.register
  rcases feedRange_cases as s with ⟨r, hr, hnext⟩ | ⟨a, ha, hfault⟩
  · have hboth : feedRange (as ++ bs) s = feedRange bs (s.setRegister r) := by
      rw [feedRange, feedRange, happend, hr]
      rfl
    rw [execAll_cons_of_next ((hi s hs).trans hnext), hboth, ← hj (s.setRegister r) hs, execAll]
    cases exec j (s.setRegister r) <;> rfl
  · rw [execAll, hi s hs, hfault, feedRange, happend, ha]
    rfl

/-- A range splits into its first `m` bytes and the rest. -/
theorem ascending_add {base : Word} {m n : Byte} (hlen : m.toNat + n.toNat < 256)
    (hbase : base.toNat + m.toNat < 65536) :
    ascending base (m + n) = ascending base m ++ ascending (base + m.setWidth 16) n := by
  have hsum : (m + n).toNat = m.toNat + n.toNat := by
    rw [BitVec.toNat_add, Nat.mod_eq_of_lt hlen]
  have hnext : (base + m.setWidth 16).toNat = base.toNat + m.toNat := by
    rw [BitVec.toNat_add, toNat_setWidth_byte, Nat.mod_eq_of_lt hbase]
  have hshift : effectiveAddress (base + m.setWidth 16) = effectiveAddress base ∘ fun i => m.toNat + i := by
    funext i
    simp only [effectiveAddress, Function.comp_apply, hnext, Nat.add_assoc]
  rw [ascending, ascending, ascending, hsum, List.range_add, List.map_append, List.map_map, hshift]

/-! ### Linearity -/

theorem shl16_xor (r₁ r₂ : Word) : shl16 (r₁ ^^^ r₂) = shl16 r₁ ^^^ shl16 r₂ :=
  BitVec.shiftLeft_xor_distrib ..

/-- A bit step is linear over the two-element field for a fixed polynomial (R92). -/
theorem stepBit_xor (r₁ r₂ p : Word) (t₁ t₂ : Byte) :
    stepBit (r₁ ^^^ r₂) p (t₁ ^^^ t₂) = stepBit r₁ p t₁ ^^^ stepBit r₂ p t₂ := by
  have htop : topBit (r₁ ^^^ r₂) = (topBit r₁ ^^ topBit r₂) := BitVec.getLsbD_xor
  have hinput : inputBit (t₁ ^^^ t₂) = (inputBit t₁ ^^ inputBit t₂) := BitVec.getLsbD_xor
  have hfeedback : (topBit (r₁ ^^^ r₂) ^^ inputBit (t₁ ^^^ t₂)) =
      ((topBit r₁ ^^ inputBit t₁) ^^ (topBit r₂ ^^ inputBit t₂)) := by
    rw [htop, hinput, Bool.xor_assoc, Bool.xor_assoc, Bool.xor_left_comm (topBit r₂)]
  rw [stepBit_eq_shl16_xor, stepBit_eq_shl16_xor, stepBit_eq_shl16_xor, hfeedback, shl16_xor]
  have hpoly : ∀ b c : Bool, (if b ^^ c then p else 0x0000#16) =
      (if b then p else 0x0000#16) ^^^ (if c then p else 0x0000#16) := by
    intro b c
    cases b <;> cases c <;> simp
  rw [hpoly]
  ac_rfl

/-- Folding a linear step over a list is linear. -/
theorem foldl_xor {step : Word → Byte → Word}
    (hstep : ∀ r₁ r₂ t₁ t₂, step (r₁ ^^^ r₂) (t₁ ^^^ t₂) = step r₁ t₁ ^^^ step r₂ t₂) (r₁ r₂ : Word)
    {ts us : List Byte} (h : ts.length = us.length) :
    (List.zipWith (· ^^^ ·) ts us).foldl step (r₁ ^^^ r₂) = ts.foldl step r₁ ^^^ us.foldl step r₂ := by
  induction ts generalizing r₁ r₂ us with
  | nil =>
    cases us with
    | nil => rfl
    | cons u us => cases h
  | cons t ts ih =>
    cases us with
    | nil => cases h
    | cons u us =>
      rw [List.zipWith_cons_cons, List.foldl_cons, List.foldl_cons, List.foldl_cons, hstep]
      exact ih _ _ (Nat.succ.inj h)

theorem feedBits_xor (r₁ r₂ p : Word) {ts us : List Byte} (h : ts.length = us.length) :
    feedBits (r₁ ^^^ r₂) p (List.zipWith (· ^^^ ·) ts us) = feedBits r₁ p ts ^^^ feedBits r₂ p us := by
  simp only [feedBits_eq_foldl]
  exact foldl_xor (fun r₁ r₂ => stepBit_xor r₁ r₂ p) r₁ r₂ h

theorem byteBits_xor (d₁ d₂ : Byte) :
    byteBits (d₁ ^^^ d₂) = List.zipWith (· ^^^ ·) (byteBits d₁) (byteBits d₂) := by
  simp [byteBits, List.zipWith_map, BitVec.shiftLeft_xor_distrib]

theorem stepByte_xor (r₁ r₂ p : Word) (d₁ d₂ : Byte) :
    stepByte (r₁ ^^^ r₂) p (d₁ ^^^ d₂) = stepByte r₁ p d₁ ^^^ stepByte r₂ p d₂ := by
  have hlen : (byteBits d₁).length = (byteBits d₂).length := by rw [length_byteBits, length_byteBits]
  simp only [stepByte_eq_feedBits_byteBits, byteBits_xor, feedBits_xor r₁ r₂ p hlen]

theorem fwd_xor (r₁ r₂ p : Word) {xs ys : List Byte} (h : xs.length = ys.length) :
    fwd (r₁ ^^^ r₂) p (List.zipWith (· ^^^ ·) xs ys) = fwd r₁ p xs ^^^ fwd r₂ p ys := by
  simp only [fwd_eq_foldl]
  exact foldl_xor (fun r₁ r₂ => stepByte_xor r₁ r₂ p) r₁ r₂ h

theorem zipWith_xor_replicate_zero (ts : List Byte) :
    List.zipWith (· ^^^ ·) ts (List.replicate ts.length 0x00#8) = ts := by
  induction ts with
  | nil => rfl
  | cons t ts ih => rw [List.length_cons, List.replicate_succ, List.zipWith_cons_cons, ih, BitVec.xor_zero]

/-- Two orders of the same two bytes differ by what their difference, fed twice to an all-zero register, gives
(R86). -/
theorem fwd_xor_rev_pair (r p : Word) (x y : Byte) :
    fwd r p [x, y] ^^^ rev r p [x, y] = fwd 0x0000#16 p [x ^^^ y, x ^^^ y] := by
  have hrev : rev r p [x, y] = fwd r p [y, x] := rfl
  have hlinear := fwd_xor r r p (xs := [x, y]) (ys := [y, x]) rfl
  rw [hrev, ← hlinear, BitVec.xor_self]
  simp only [List.zipWith_cons_cons, List.zipWith_nil_left, BitVec.xor_comm y x]

/-! ### Steps without feedback -/

/-- Where no bit gives feedback the polynomial has no influence (R90). -/
theorem feedBits_eq_of_no_feedback {seed p₁ : Word} {ts : List Byte}
    (h : ∀ pre t post, ts = pre ++ t :: post → ((feedBits seed p₁ pre).getLsbD 15 ^^ t.getLsbD 7) = false)
    (p₂ : Word) : feedBits seed p₁ ts = feedBits seed p₂ ts := by
  induction ts generalizing seed with
  | nil => rfl
  | cons t ts ih =>
    have htop : topBit seed = inputBit t := bne_eq_false_iff_eq.1 (h [] t ts rfl)
    have hfirst : ∀ p, stepBit seed p t = shl16 seed := stepBit_of_topBit_eq htop
    rw [feedBits_cons, feedBits_cons, hfirst p₂, ← hfirst p₁]
    exact ih fun pre u post hsplit => h (t :: pre) u post (congrArg (t :: ·) hsplit)

/-- Bits that equal the register bits they meet give no feedback: the register is only shifted. -/
theorem feedBits_of_matching {r : Word} {ts : List Byte} (p : Word) (hlen : ts.length ≤ 16)
    (h : ∀ (k : Nat) (hk : k < ts.length), r.getLsbD (15 - k) = ts[k].getLsbD 7) :
    feedBits r p ts = r <<< ts.length := by
  induction ts generalizing r with
  | nil => exact (BitVec.shiftLeft_zero r).symm
  | cons t ts ih =>
    rw [List.length_cons] at hlen
    have hfirst : stepBit r p t = shl16 r := stepBit_of_topBit_eq (h 0 (Nat.succ_pos _)) p
    have hrest : ∀ (k : Nat) (hk : k < ts.length), (shl16 r).getLsbD (15 - k) = ts[k].getLsbD 7 := by
      intro k hk
      rw [getLsbD_shl16_of_pos r (by omega) (by omega), Nat.sub_sub]
      exact h (k + 1) (Nat.succ_lt_succ hk)
    rw [feedBits_cons, hfirst, ih (by omega) hrest, shl16, ← BitVec.shiftLeft_add, List.length_cons, Nat.add_comm]

theorem toNat_highByte (r : Word) : (r.extractLsb' 8 8).toNat = r.toNat / 256 := by
  have hlt := r.isLt
  rw [BitVec.extractLsb'_toNat, Nat.shiftRight_eq_div_pow]
  omega

theorem highByte_setWidth (e : Byte) : (e.setWidth 16 : Word).extractLsb' 8 8 = 0x00#8 := by
  have hlt := e.isLt
  apply BitVec.eq_of_toNat_eq
  rw [toNat_highByte, toNat_setWidth_byte, BitVec.toNat_ofNat]
  omega

theorem highByte_setWidth_shiftLeft (e : Byte) : ((e.setWidth 16 : Word) <<< 8).extractLsb' 8 8 = e := by
  have hlt := e.isLt
  apply BitVec.eq_of_toNat_eq
  rw [toNat_highByte, BitVec.toNat_shiftLeft, toNat_setWidth_byte, Nat.shiftLeft_eq]
  omega

/-- A byte equal to the high byte of the register gives no feedback. -/
theorem stepByte_of_high_eq {r : Word} {d : Byte} (h : r.extractLsb' 8 8 = d) (p : Word) :
    stepByte r p d = r <<< 8 := by
  have hmatch : ∀ (k : Nat) (hk : k < (byteBits d).length), r.getLsbD (15 - k) = (byteBits d)[k].getLsbD 7 := by
    intro k hk
    have hk8 : k < 8 := length_byteBits d ▸ hk
    have hindex : 8 + (7 - k) = 15 - k := by omega
    have hlt : 7 - k < 8 := by omega
    simp only [byteBits, List.getElem_map, List.getElem_range]
    rw [getLsbD_shiftLeft_seven d hk8, ← h, BitVec.getLsbD_extractLsb', hindex, decide_eq_true hlt, Bool.true_and]
  have hlen : (byteBits d).length ≤ 16 := by
    rw [length_byteBits]
    decide
  rw [stepByte_eq_feedBits_byteBits, feedBits_of_matching p hlen hmatch, length_byteBits]

/-- A register fed to itself, high byte first, is shifted out (R94). -/
theorem fwd_self (r p : Word) : fwd r p [r.extractLsb' 8 8, r.extractLsb' 0 8] = 0x0000#16 := by
  have hlow : (r <<< 8).extractLsb' 8 8 = r.extractLsb' 0 8 := by
    apply BitVec.eq_of_toNat_eq
    rw [toNat_highByte, BitVec.toNat_shiftLeft, BitVec.extractLsb'_toNat, Nat.shiftLeft_eq, Nat.shiftRight_zero]
    omega
  rw [fwd_cons, fwd_cons, fwd_nil, stepByte_of_high_eq rfl, stepByte_of_high_eq hlow, ← BitVec.shiftLeft_add]
  exact BitVec.shiftLeft_eq_zero (by decide)

/-- Feeding the bytes of `c` is feeding the bytes of its difference from the register to an all-zero register (R94). -/
theorem fwd_word_eq (r c p : Word) : fwd r p [c.extractLsb' 8 8, c.extractLsb' 0 8] =
    fwd 0x0000#16 p [(r ^^^ c).extractLsb' 8 8, (r ^^^ c).extractLsb' 0 8] := by
  have hlinear := fwd_xor r r p (xs := [c.extractLsb' 8 8, c.extractLsb' 0 8])
    (ys := [r.extractLsb' 8 8, r.extractLsb' 0 8]) rfl
  rw [fwd_self, BitVec.xor_zero, BitVec.xor_self] at hlinear
  rw [← hlinear, BitVec.xor_comm r c, BitVec.extractLsb'_xor, BitVec.extractLsb'_xor]
  rfl

/-! ### Steps with polynomial 0x0000 -/

theorem stepBit_zero_polynomial (r : Word) (t : Byte) : stepBit r 0x0000#16 t = shl16 r := by
  rw [stepBit_eq_shl16_xor, ite_self, BitVec.xor_zero]

theorem feedBits_zero_polynomial (r : Word) (ts : List Byte) : feedBits r 0x0000#16 ts = r <<< ts.length := by
  induction ts generalizing r with
  | nil => exact (BitVec.shiftLeft_zero r).symm
  | cons t ts ih =>
    rw [feedBits_cons, stepBit_zero_polynomial, ih, shl16, ← BitVec.shiftLeft_add, List.length_cons, Nat.add_comm]

theorem feedBits_zero_polynomial_of_le (r : Word) {ts : List Byte} (h : 16 ≤ ts.length) :
    feedBits r 0x0000#16 ts = 0x0000#16 := by
  rw [feedBits_zero_polynomial]
  exact BitVec.shiftLeft_eq_zero h

theorem fwd_pair_zero_polynomial (r : Word) (x y : Byte) : fwd r 0x0000#16 [x, y] = 0x0000#16 := by
  rw [fwd_eq_feedBits]
  exact feedBits_zero_polynomial_of_le r (length_flatMap_byteBits [x, y]).ge

/-! ### Steps that can be undone: bit 0 of the polynomial is 1 -/

/-- With bit 0 of the polynomial set, only an all-zero register steps to all zero on a 0 bit. -/
theorem eq_zero_of_stepBit_eq_zero {r p : Word} (hp : p.getLsbD 0 = true)
    (h : stepBit r p 0x00#8 = 0x0000#16) : r = 0x0000#16 := by
  have htop : topBit r = false := by
    by_contra hset
    rw [stepBit_of_topBit_eq_not (Bool.eq_true_of_not_eq_false hset)] at h
    have hbit := congrArg (fun v : Word => v.getLsbD 0) h
    simp only [BitVec.getLsbD_xor, getLsbD_shl16_zero, hp] at hbit
    cases hbit
  have hshift : shl16 r = 0x0000#16 := (stepBit_of_topBit_eq htop p).symm.trans h
  apply BitVec.eq_of_getLsbD_eq
  intro j hj
  rw [BitVec.getLsbD_zero]
  rcases Nat.lt_or_ge j 15 with hlt | hge
  · have hbit := getLsbD_shl16_of_pos r (j := j + 1) (by omega) (by omega)
    rwa [hshift, BitVec.getLsbD_zero, eq_comm] at hbit
  · have hj15 : j = 15 := by omega
    rw [hj15]
    exact htop

theorem stepBit_injective {p : Word} (hp : p.getLsbD 0 = true) (t : Byte) :
    Function.Injective fun r => stepBit r p t := by
  intro r r' h
  have hdiff : stepBit (r ^^^ r') p (t ^^^ t) = 0x0000#16 := by
    rw [stepBit_xor]
    exact BitVec.xor_eq_zero_iff.2 h
  rw [BitVec.xor_self] at hdiff
  exact BitVec.xor_eq_zero_iff.1 (eq_zero_of_stepBit_eq_zero hp hdiff)

theorem feedBits_injective {p : Word} (hp : p.getLsbD 0 = true) (ts : List Byte) :
    Function.Injective fun r => feedBits r p ts := by
  induction ts with
  | nil => exact Function.injective_id
  | cons t ts ih => exact ih.comp (stepBit_injective hp t)

theorem fwd_injective {p : Word} (hp : p.getLsbD 0 = true) (ds : List Byte) :
    Function.Injective fun r => fwd r p ds := by
  simpa only [fwd_eq_feedBits] using feedBits_injective hp (ds.flatMap byteBits)

/-- With bit 0 of the polynomial set, a byte fed twice to an all-zero register leaves zero only when it is zero: the
first feed would have to leave the byte in the high half, and that is what it is shifted to from the low half. -/
theorem eq_zero_of_fwd_pair_eq_zero {p : Word} (hp : p.getLsbD 0 = true) {e : Byte}
    (h : fwd 0x0000#16 p [e, e] = 0x0000#16) : e = 0x00#8 := by
  have hstep : Function.Injective fun r => stepByte r p e := fwd_injective hp [e]
  have hstep0 : Function.Injective fun r => stepByte r p 0x00#8 := fwd_injective hp [0x00#8]
  have hlow : stepByte (e.setWidth 16) p 0x00#8 = e.setWidth 16 <<< 8 :=
    stepByte_of_high_eq (highByte_setWidth e) p
  have hhigh : stepByte (e.setWidth 16 <<< 8) p e = 0x0000#16 := by
    rw [stepByte_of_high_eq (highByte_setWidth_shiftLeft e), ← BitVec.shiftLeft_add]
    exact BitVec.shiftLeft_eq_zero (by decide)
  have hfirst : stepByte 0x0000#16 p e = e.setWidth 16 <<< 8 := hstep (h.trans hhigh.symm)
  have hlinear : stepByte (e.setWidth 16 <<< 8) p 0x00#8 ^^^ stepByte 0x0000#16 p e = 0x0000#16 := by
    rw [← stepByte_xor, BitVec.xor_zero, BitVec.zero_xor, hhigh]
  have hsame : e.setWidth 16 <<< 8 = (e.setWidth 16 : Word) :=
    hstep0 (((BitVec.xor_eq_zero_iff.1 hlinear).trans hfirst).trans hlow.symm)
  have hnat := congrArg BitVec.toNat hsame
  rw [BitVec.toNat_shiftLeft, toNat_setWidth_byte, Nat.shiftLeft_eq] at hnat
  apply BitVec.eq_of_toNat_eq
  rw [BitVec.toNat_ofNat]
  omega

/-! ### The statements -/

/-- Settles O28: the byte's range has one address, and eight FEEDBIT operations feed its bits. -/
theorem byteFeedIsEightBitFeeds : Obligations.ByteFeedIsEightBitFeeds := by
  intro base d s hs hread
  have hbytes : ∀ i b, [d][i]? = some b → s.mem.read (base.toNat + i) = some b := by
    simpa [List.getElem?_singleton] using hread
  have hfeed : exec (.feedfwd base 1#8) s = .next { s with register := stepByte s.register s.polynomial d } :=
    exec_feedfwd_of_read_active hs rfl hbytes
  refine ⟨hfeed, ?_, (execAll_feedbit_byte hs fun k _ => ?_).trans hfeed.symm,
    (execAll_feedbit_byte hs fun k hk => ?_).trans hfeed.symm⟩
  · rw [exec_feedrev_active base _ hs, exec_feedfwd_active base _ hs, descending_one]
  · rw [ofNat_mul_pow_mod_eq_shiftLeft]
  · rw [getLsbD_ite_topBit, getLsbD_shiftLeft_seven d (List.mem_range.1 hk)]

/-- Settles O29: `rev` is `fwd` over the reversed list, and two ranges that hold each other's bytes in reverse read alike
in the two orders. -/
theorem reverseFeedIsForwardOverReversed : Obligations.ReverseFeedIsForwardOverReversed := by
  refine ⟨fun _ _ _ => rfl, fun _ _ _ => rfl, fun r p ds h => ?_, fun base base' len s hs h => ?_⟩
  · rw [rev, h]
  · have hreadable : rangeReadable s.mem base len = true :=
      List.all_eq_true.2 fun i hi => (h i (List.mem_range.1 hi)).1
    have hmirror : (ascending base' len).map s.mem.read = (descending base len).map s.mem.read := by
      refine List.ext_getElem (by simp [descending]) fun i hi _ => ?_
      have hi' : i < len.toNat := by simpa using hi
      simpa [descending, ascending, effectiveAddress] using (h i hi').2
    have hread := map_read_descending hreadable
    exact ⟨_, checkedFeed_of_readable hs hread, checkedFeed_of_readable hs (hmirror.trans hread)⟩

/-- Settles O30: the addresses of a range split, and a feed splits with them. -/
theorem feedsSplitAndJoin : Obligations.FeedsSplitAndJoin := by
  refine ⟨fwd_append, fun r p xs ys => ?_, fun base m n s hs hlen hbase => ⟨?_, ?_⟩⟩
  · rw [rev, List.reverse_append, fwd_append, rev, rev]
  · rw [exec_feedfwd_active base _ hs, ascending_add hlen hbase]
    exact (execAll_feeds hs (fun _ => exec_feedfwd_active _ _) fun _ => exec_feedfwd_active _ _).symm
  · rw [exec_feedrev_active base _ hs, descending, ascending_add hlen hbase, List.reverse_append]
    exact (execAll_feeds hs (fun _ => exec_feedrev_active _ _) fun _ => exec_feedrev_active _ _).symm

/-- Settles O34: without feedback both polynomials leave the same shifted register, and the first feedback XORs each
in. -/
theorem polynomialSensitivity : Obligations.PolynomialSensitivity := by
  refine ⟨fun seed p₁ p₂ ts h => ?_, by decide, by decide, by decide⟩
  have hsame := feedBits_eq_of_no_feedback h p₂
  refine ⟨hsame, fun t ht => ?_⟩
  have htop : topBit (feedBits seed p₁ ts) = !inputBit t := Bool.eq_not.2 (Bool.xor_iff_ne.1 ht)
  have hnext : ∀ p, feedBits (feedBits seed p₁ ts) p [t] = shl16 (feedBits seed p₁ ts) ^^^ p :=
    stepBit_of_topBit_eq_not htop
  have hxor : feedBits seed p₁ (ts ++ [t]) ^^^ feedBits seed p₂ (ts ++ [t]) = p₁ ^^^ p₂ := by
    rw [feedBits_append, feedBits_append, ← hsame, hnext, hnext, BitVec.xor_comm _ p₁, BitVec.xor_assoc,
      ← BitVec.xor_assoc _ _ p₂, BitVec.xor_self, BitVec.zero_xor]
  refine ⟨hxor, fun hne heq => hne ?_⟩
  rwa [heq, BitVec.xor_self, eq_comm, BitVec.xor_eq_zero_iff] at hxor

/-- Settles O35: the bit step is linear, and so are the steps and feeds made of it; a 1 shifted out against another
polynomial is the counterexample across polynomials. -/
theorem linearityOfFeeds : Obligations.LinearityOfFeeds := by
  refine ⟨stepBit_xor, stepByte_xor, fun r₁ r₂ p _ _ => fwd_xor r₁ r₂ p,
    fun p => stepBit_of_topBit_eq (r := 0x0000#16) (t := 0x00#8) rfl p, fun r e p ts => ?_,
    0x8000#16, 0x0000#16, 0x0000#16, 0x0001#16, 0x00#8, 0x00#8, by decide⟩
  rw [← feedBits_xor r e p List.length_replicate.symm, zipWith_xor_replicate_zero]

/-- Settles O37: a register fed to itself is shifted out, so the transmitted value counts only by its difference from
the register; with bit 0 of the polynomial set, feeding can be undone. -/
theorem feedingRegisterToItselfGivesZero : Obligations.FeedingRegisterToItselfGivesZero := by
  refine ⟨fwd_self, fwd_self, fun r p => ?_, fwd_word_eq, fun r c p hp => ⟨fun h => ?_, fun h => ?_⟩,
    fun r c => fwd_pair_zero_polynomial r _ _⟩
  · have hlen : ((List.range 16).map fun k => if r.getLsbD (15 - k) then 0x80#8 else 0x00#8).length = 16 := by simp
    rw [feedBits_of_matching p hlen.le fun k hk => ?_, hlen]
    · exact BitVec.shiftLeft_eq_zero (Nat.le_refl 16)
    · rw [List.getElem_map, List.getElem_range, getLsbD_ite_topBit]
  · exact fwd_injective hp _ ((fwd_self c p).trans h.symm)
  · rw [h, fwd_self]

/-- Settles O38: without a polynomial every step shifts. -/
theorem zeroPolynomialShiftsOnly : Obligations.ZeroPolynomialShiftsOnly := by
  refine ⟨stepBit_zero_polynomial, fun r d => ?_, fun r ts h => feedBits_zero_polynomial_of_le r h⟩
  rw [stepByte_eq_feedBits_byteBits, feedBits_zero_polynomial, length_byteBits, BitVec.toNat_shiftLeft,
    Nat.shiftLeft_eq]

/-- Settles O33: the register after each digit of "123456789". -/
theorem knownAnswers : Obligations.KnownAnswers := by
  have h1 : stepByte 0xFFFF#16 0x1021#16 0x31#8 = 0xC782#16 := by decide
  have h2 : stepByte 0xC782#16 0x1021#16 0x32#8 = 0x3DBA#16 := by decide
  have h3 : stepByte 0x3DBA#16 0x1021#16 0x33#8 = 0x5BCE#16 := by decide
  have h4 : stepByte 0x5BCE#16 0x1021#16 0x34#8 = 0x5349#16 := by decide
  have h5 : stepByte 0x5349#16 0x1021#16 0x35#8 = 0x4560#16 := by decide
  have h6 : stepByte 0x4560#16 0x1021#16 0x36#8 = 0x2EF4#16 := by decide
  have h7 : stepByte 0x2EF4#16 0x1021#16 0x37#8 = 0x7718#16 := by decide
  have h8 : stepByte 0x7718#16 0x1021#16 0x38#8 = 0xA12B#16 := by decide
  have h9 : stepByte 0xA12B#16 0x1021#16 0x39#8 = 0x29B1#16 := by decide
  refine ⟨by decide, ?_⟩
  simp only [fwd_cons, fwd_nil, h1, h2, h3, h4, h5, h6, h7, h8, h9]

end Sys2Proof.Machine
end

section
/-! SUPPORT. The register as the remainder of a polynomial division (`45_properties.md` R93), and what it says of the
order of two bytes (R86). -/

namespace Sys2Proof.Machine

open Polynomial

/-! ### Bits as polynomials -/

theorem coeff_polynomialOfBits {w : Nat} (v : BitVec w) (j : Nat) :
    (polynomialOfBits w v).coeff j = if v.getLsbD j then 1 else 0 := by
  have hterm : ∀ i, (if v.getLsbD i then (X : (ZMod 2)[X]) ^ i else 0).coeff j =
      if j = i then (if v.getLsbD j then 1 else 0) else 0 := by
    intro i
    by_cases hj : j = i
    · subst hj
      cases v.getLsbD j <;> simp
    · cases v.getLsbD i <;> simp [coeff_X_pow, hj]
  rw [polynomialOfBits, finsetSum_coeff, Finset.sum_congr rfl fun i _ => hterm i, Finset.sum_ite_eq]
  by_cases hj : j < w
  · rw [if_pos (Finset.mem_range.2 hj)]
  · rw [if_neg (Finset.mem_range.not.2 hj), BitVec.getLsbD_of_ge v j (Nat.le_of_not_lt hj)]
    rfl

theorem polynomialOfBits_injective (w : Nat) : Function.Injective (polynomialOfBits w) := by
  intro u v h
  apply BitVec.eq_of_getLsbD_eq
  intro j _
  have hcoeff := congrArg (fun q => q.coeff j) h
  simp only [coeff_polynomialOfBits] at hcoeff
  cases hu : u.getLsbD j <;> cases hv : v.getLsbD j <;> simp [hu, hv] at hcoeff ⊢

theorem polynomialOfBits_zero (w : Nat) : polynomialOfBits w 0#w = 0 := by
  ext j
  simp [coeff_polynomialOfBits]

/-- XOR of bits is addition over the two-element field. -/
theorem polynomialOfBits_xor {w : Nat} (u v : BitVec w) :
    polynomialOfBits w (u ^^^ v) = polynomialOfBits w u + polynomialOfBits w v := by
  ext j
  rw [coeff_add, coeff_polynomialOfBits, coeff_polynomialOfBits, coeff_polynomialOfBits, BitVec.getLsbD_xor]
  cases u.getLsbD j <;> cases v.getLsbD j <;> decide

theorem polynomialOfBits_twoPow {w k : Nat} (hk : k < w) :
    polynomialOfBits w (BitVec.twoPow w k) = X ^ k := by
  ext j
  rw [coeff_polynomialOfBits, BitVec.getLsbD_twoPow, coeff_X_pow]
  by_cases hj : j = k
  · simp [hj, hk]
  · simp [hj, Ne.symm hj]

theorem degree_polynomialOfBits_lt {w : Nat} (v : BitVec w) : (polynomialOfBits w v).degree < w := by
  rw [degree_lt_iff_coeff_zero]
  intro j hj
  rw [coeff_polynomialOfBits, BitVec.getLsbD_of_ge v j hj]
  rfl

theorem ite_xor_one_zero (b c : Bool) : (if b ^^ c then 1 else 0 : (ZMod 2)[X]) =
    (if b then 1 else 0) + if c then 1 else 0 := by
  cases b <;> cases c <;> simp [CharTwo.add_self_eq_zero]

/-- A shift multiplies by X, and the bit that leaves at the top is the coefficient of X^16. -/
theorem X_mul_polynomialOfBits (r : Word) :
    X * polynomialOfBits 16 r = polynomialOfBits 16 (shl16 r) + (if topBit r then 1 else 0) * X ^ 16 := by
  ext j
  rw [boole_mul, coeff_add, coeff_polynomialOfBits, apply_ite fun q => coeff q j, coeff_X_pow, coeff_zero]
  cases j with
  | zero =>
    rw [getLsbD_shl16_zero, coeff_X_mul_zero]
    simp
  | succ j =>
    rw [coeff_X_mul, coeff_polynomialOfBits]
    rcases Nat.lt_trichotomy j 15 with hlt | rfl | hgt
    · have hbit : (shl16 r).getLsbD (j + 1) = r.getLsbD j := getLsbD_shl16_of_pos r (by omega) (by omega)
      simp [hbit, show j + 1 ≠ 16 by omega]
    · have hbit : (shl16 r).getLsbD (15 + 1) = false := BitVec.getLsbD_of_ge _ _ (Nat.le_refl 16)
      rw [hbit]
      simp [topBit]
    · rw [BitVec.getLsbD_of_ge _ _ (show 16 ≤ j by omega), BitVec.getLsbD_of_ge _ _ (show 16 ≤ j + 1 by omega)]
      simp [show j + 1 ≠ 16 by omega]

/-! ### The generator -/

/-- The generator polynomial, its coefficient of X^16 implicit in `polynomial` (`10_state.md` R16). -/
noncomputable def generator (p : Word) : (ZMod 2)[X] := X ^ 16 + polynomialOfBits 16 p

theorem monic_generator (p : Word) : (generator p).Monic :=
  monic_X_pow_add (degree_polynomialOfBits_lt p)

/-- The register holds remainders of division by the generator. -/
theorem polynomialOfBits_modByMonic (r p : Word) : polynomialOfBits 16 r %ₘ generator p = polynomialOfBits 16 r := by
  have hdegree : (generator p).degree = 16 := by
    have hlt : (polynomialOfBits 16 p).degree < ((X : (ZMod 2)[X]) ^ 16).degree := by
      rw [degree_X_pow]
      exact degree_polynomialOfBits_lt p
    rw [generator, degree_add_eq_left_of_degree_lt hlt, degree_X_pow]
    rfl
  rw [modByMonic_eq_self_iff (monic_generator p), hdegree]
  exact degree_polynomialOfBits_lt r

/-- A bit step multiplies by X, adds the bit at X^16, and reduces by the generator. -/
theorem polynomialOfBits_stepBit (r p : Word) (t : Byte) :
    polynomialOfBits 16 (stepBit r p t) =
      X * polynomialOfBits 16 r + (if t.getLsbD 7 then 1 else 0) * X ^ 16 +
        (if topBit r ^^ inputBit t then 1 else 0) * generator p := by
  have hpoly : polynomialOfBits 16 (if topBit r ^^ inputBit t then p else 0x0000#16) =
      (if topBit r ^^ inputBit t then 1 else 0) * polynomialOfBits 16 p := by
    rw [boole_mul, apply_ite (polynomialOfBits 16), polynomialOfBits_zero]
  have hfeedback : (if topBit r ^^ inputBit t then 1 else 0 : (ZMod 2)[X]) =
      (if topBit r then 1 else 0) + if t.getLsbD 7 then 1 else 0 := ite_xor_one_zero _ _
  have htwo : (X : (ZMod 2)[X]) ^ 16 + X ^ 16 = 0 := CharTwo.add_self_eq_zero _
  rw [stepBit_eq_shl16_xor, polynomialOfBits_xor, hpoly, X_mul_polynomialOfBits, generator, hfeedback]
  linear_combination (-(if topBit r then 1 else 0) - if t.getLsbD 7 then 1 else 0) * htwo

/-- The bits fed as a polynomial, first bit highest, below the coefficients of `m`. -/
noncomputable def messageOfBits (m : (ZMod 2)[X]) (ts : List Byte) : (ZMod 2)[X] :=
  ts.foldl (fun m t => m * X + if t.getLsbD 7 then 1 else 0) m

theorem messageOfBits_append (m : (ZMod 2)[X]) (ts us : List Byte) :
    messageOfBits m (ts ++ us) = messageOfBits (messageOfBits m ts) us :=
  List.foldl_append

/-- Bit by bit, seed and message stay in the register's residue class modulo the generator. -/
theorem generator_dvd_feedBits (seed p : Word) (ts : List Byte) :
    generator p ∣ polynomialOfBits 16 seed * X ^ ts.length + messageOfBits 0 ts * X ^ 16 -
      polynomialOfBits 16 (feedBits seed p ts) := by
  induction ts using List.reverseRecOn with
  | nil => simp [messageOfBits]
  | append_singleton ts t ih =>
    have hmessage : messageOfBits 0 (ts ++ [t]) = messageOfBits 0 ts * X + if t.getLsbD 7 then 1 else 0 := by
      rw [messageOfBits_append]
      rfl
    rw [hmessage, feedBits_append, feedBits_cons, feedBits_nil, polynomialOfBits_stepBit, List.length_append,
      List.length_singleton]
    convert (ih.mul_right X).sub (dvd_mul_left (generator p)
      (if topBit (feedBits seed p ts) ^^ inputBit t then 1 else 0)) using 1
    ring

/-- The register is the remainder, bit by bit (R93). -/
theorem polynomialOfBits_feedBits (seed p : Word) (ts : List Byte) :
    polynomialOfBits 16 (feedBits seed p ts) =
      (polynomialOfBits 16 seed * X ^ ts.length + messageOfBits 0 ts * X ^ 16) %ₘ generator p := by
  rw [modByMonic_eq_of_dvd_sub (monic_generator p) (generator_dvd_feedBits seed p ts), polynomialOfBits_modByMonic]

/-- The bytes fed as a polynomial, the bits of each as one number, first byte highest. -/
noncomputable def messageOfBytes (ds : List Byte) : (ZMod 2)[X] :=
  ds.foldl (fun m d => m * X ^ 8 + polynomialOfBits 8 d) 0

theorem messageOfBits_byteBits (m : (ZMod 2)[X]) (d : Byte) :
    messageOfBits m (byteBits d) = m * X ^ 8 + polynomialOfBits 8 d := by
  have hbits : messageOfBits m (byteBits d) =
      (List.range 8).foldl (fun m k => m * X + if d.getLsbD (7 - k) then 1 else 0) m := by
    rw [messageOfBits, byteBits, List.foldl_map]
    refine List.foldl_ext _ _ _ fun _ k hk => ?_
    rw [getLsbD_shiftLeft_seven d (List.mem_range.1 hk)]
  have hsum : polynomialOfBits 8 d = ∑ j ∈ Finset.range 8, (if d.getLsbD j then 1 else 0) * X ^ j := by
    simp only [polynomialOfBits, boole_mul]
  simp only [hbits, hsum, List.range_succ, List.range_zero, Finset.sum_range_succ,
    Finset.sum_range_zero, List.nil_append, List.cons_append, List.foldl_cons, List.foldl_nil]
  ring

theorem messageOfBits_flatMap_byteBits (ds : List Byte) :
    messageOfBits 0 (ds.flatMap byteBits) = messageOfBytes ds := by
  rw [messageOfBytes, messageOfBits, List.foldl_flatMap]
  exact List.foldl_ext _ _ _ fun m d _ => messageOfBits_byteBits m d

/-- The register is the remainder, byte by byte (R93). -/
theorem polynomialOfBits_fwd (seed p : Word) (ds : List Byte) :
    polynomialOfBits 16 (fwd seed p ds) =
      (polynomialOfBits 16 seed * X ^ (8 * ds.length) + messageOfBytes ds * X ^ 16) %ₘ generator p := by
  rw [fwd_eq_feedBits, polynomialOfBits_feedBits, length_flatMap_byteBits, messageOfBits_flatMap_byteBits]

/-! ### Polynomials that do not tell two bytes apart by their order -/

/-- With X^k for the polynomial, where 16 - k divides 8, the generator X^k * (X^(16-k) + 1) divides X^16 * (X^8 + 1),
which is what a byte fed twice is multiplied by. -/
theorem fwd_pair_twoPow {k : Nat} (hk : k < 16) (hdvd : 16 - k ∣ 8) (e : Byte) :
    fwd 0x0000#16 (BitVec.twoPow 16 k) [e, e] = 0x0000#16 := by
  obtain ⟨n, hn⟩ := hdvd
  have hgenerator : generator (BitVec.twoPow 16 k) = X ^ k * (X ^ (16 - k) + 1) := by
    rw [generator, polynomialOfBits_twoPow hk, mul_add, ← pow_add, Nat.add_sub_of_le hk.le, mul_one]
  have hfactor : (X : (ZMod 2)[X]) ^ (16 - k) + 1 ∣ X ^ 8 + 1 := by
    have hpow := sub_dvd_pow_sub_pow ((X : (ZMod 2)[X]) ^ (16 - k)) 1 n
    rwa [← pow_mul, ← hn, one_pow, CharTwo.sub_eq_add, CharTwo.sub_eq_add] at hpow
  have hmessage : messageOfBytes [e, e] * X ^ 16 = X ^ 16 * (X ^ 8 + 1) * polynomialOfBits 8 e := by
    simp only [messageOfBytes, List.foldl_cons, List.foldl_nil]
    ring
  have hdvd : generator (BitVec.twoPow 16 k) ∣ messageOfBytes [e, e] * X ^ 16 := by
    rw [hgenerator, hmessage]
    exact (mul_dvd_mul (pow_dvd_pow X hk.le) hfactor).mul_right _
  apply polynomialOfBits_injective 16
  rw [polynomialOfBits_fwd, polynomialOfBits_zero, zero_mul, zero_add,
    (modByMonic_eq_zero_iff_dvd (monic_generator _)).2 hdvd]

theorem fwd_pair_eq_rev_pair {k : Nat} (hk : k < 16) (hdvd : 16 - k ∣ 8) (r : Word) (x y : Byte) :
    fwd r (BitVec.twoPow 16 k) [x, y] = rev r (BitVec.twoPow 16 k) [x, y] := by
  rw [← BitVec.xor_eq_zero_iff, fwd_xor_rev_pair, fwd_pair_twoPow hk hdvd]

/-- With bit 0 of the polynomial set, the order of two bytes that differ always counts. -/
theorem fwd_pair_ne_rev_pair {p : Word} (hp : p.getLsbD 0 = true) (r : Word) {x y : Byte} (hxy : x ≠ y) :
    fwd r p [x, y] ≠ rev r p [x, y] := by
  intro h
  rw [← BitVec.xor_eq_zero_iff, fwd_xor_rev_pair] at h
  exact hxy (BitVec.xor_eq_zero_iff.1 (eq_zero_of_fwd_pair_eq_zero hp h))

/-! ### The statements -/

/-- Settles O36: each step keeps the residue class, and the register is too short to be reduced further. -/
theorem registerIsPolynomialRemainder : Obligations.RegisterIsPolynomialRemainder :=
  fun seed p => ⟨polynomialOfBits_feedBits seed p, polynomialOfBits_fwd seed p⟩

/-- Settles O31: the two orders differ by their difference fed twice, which vanishes for the four polynomials and for
no polynomial with bit 0 set. -/
theorem orderSensitivity : Obligations.OrderSensitivity := by
  refine ⟨fun _ _ _ _ => rfl, fun r _ _ _ hp hxy => fwd_pair_ne_rev_pair hp r hxy,
    fun r _ _ hxy => fwd_pair_ne_rev_pair (by decide) r hxy,
    fun r x y => ⟨fwd_pair_zero_polynomial r x y, ?_, ?_, ?_, ?_⟩, fwd_xor_rev_pair⟩
  · rw [fwd_pair_zero_polynomial]
    exact (fwd_pair_zero_polynomial r y x).symm
  · exact fwd_pair_eq_rev_pair (k := 15) (by decide) (by decide) r x y
  · exact fwd_pair_eq_rev_pair (k := 8) (by decide) (by decide) r x y
  · exact fwd_pair_eq_rev_pair (k := 12) (by decide) (by decide) r x y

end Sys2Proof.Machine
end

section
/-! SUPPORT. Faults (`60_exceptions.md`): what a feed ends in by the bytes it reads, an operation before INIT through
the one in Active mode, the record of faults, runs that go on past a stop, and the seven statements of the family. -/

namespace Sys2Proof.Machine

/-! ### What a feed ends in -/

/-- The fault with which a feed stops at the unreadable byte `a`: before INIT under `UninitializedUse`, which R105
reports first. -/
def stopAt (op : Operation) (s : State) (a : Nat) : Fault :=
  match s.mode with
  | .uninitialized => .boundsViolationBeforeInit op a
  | .active => .boundsViolation a

theorem stopAt_active {s : State} (op : Operation) (h : s.mode = .active) (a : Nat) :
    stopAt op s a = .boundsViolation a := by
  simp [stopAt, h]

theorem stopAt_uninitialized {s : State} (op : Operation) (h : s.mode = .uninitialized) (a : Nat) :
    stopAt op s a = .boundsViolationBeforeInit op a := by
  simp [stopAt, h]

theorem stopAt_eq_boundsViolation_iff {op : Operation} {s : State} {a b : Nat} :
    stopAt op s a = .boundsViolation b ↔ s.mode = .active ∧ a = b := by
  cases h : s.mode with
  | active => simp [stopAt_active op h]
  | uninitialized => simp [stopAt_uninitialized op h]

theorem stopAt_eq_boundsViolationBeforeInit_iff {op : Operation} {s : State} {a b : Nat} :
    stopAt op s a = .boundsViolationBeforeInit op b ↔ s.mode = .uninitialized ∧ a = b := by
  cases h : s.mode with
  | active => simp [stopAt_active op h]
  | uninitialized => simp [stopAt_uninitialized op h]

/-- The outcome of a feed by the bytes it reads: complete over readable ones, stopped at the first that is not. -/
theorem checkedFeed_outcome (op : Operation) (addrs : List Nat) (s : State) :
    (∃ t, checkMode op s (feedRange addrs s) = .next t ∧ t.faults = s.faults ++ usesRecorded op s) ∨
    (∃ before a after, addrs = before ++ a :: after ∧ (∀ b ∈ before, (s.mem.read b).isSome = true) ∧
      s.mem.read a = none ∧ checkMode op s (feedRange addrs s) = .fault (stopAt op s a)) := by
  rcases feedBytes_cases s.mem s.polynomial addrs s.register with ⟨ds, hds, -⟩ | ⟨before, a, after, rfl, hb, ha, -⟩
  · exact .inl ⟨_, checkedFeed_of_map_read op hds, rfl⟩
  · refine .inr ⟨before, a, after, rfl, hb, ha, ?_⟩
    rw [feedRange_stop hb ha]
    cases h : s.mode with
    | active => rw [checkMode_active op _ h, stopAt_active op h]
    | uninitialized =>
      rw [checkMode_uninitialized op _ h, stopAt_uninitialized op h, raiseUninitializedUse_boundsViolation]

section

variable {op : Operation} {addrs : List Nat} {s : State}

/-- A feed completes exactly when all its bytes are readable (`60_exceptions.md` R114). -/
theorem exists_checkedFeed_eq_next_iff :
    (∃ t, checkMode op s (feedRange addrs s) = .next t) ↔ ∀ a ∈ addrs, (s.mem.read a).isSome = true := by
  refine ⟨fun ⟨t, h⟩ a ha => isSome_read_of_checkedFeed h ha, fun h => ?_⟩
  rcases checkedFeed_outcome op addrs s with ⟨t, ht, -⟩ | ⟨before, a, after, rfl, -, ha, -⟩
  · exact ⟨t, ht⟩
  · simpa [ha] using h a (by simp)

theorem checkedFeed_faults {t : State} (h : checkMode op s (feedRange addrs s) = .next t) :
    t.faults = s.faults ++ usesRecorded op s := by
  rcases checkedFeed_outcome op addrs s with ⟨u, hu, hfaults⟩ | ⟨_, _, _, -, -, -, hfault⟩
  · cases hu.symm.trans h
    exact hfaults
  · simp [hfault] at h

/-- A feed that stops does so at the first of its addresses that is not readable. -/
theorem checkedFeed_stop {f : Fault} (h : checkMode op s (feedRange addrs s) = .fault f) :
    ∃ before a after, addrs = before ++ a :: after ∧ (∀ b ∈ before, (s.mem.read b).isSome = true) ∧
      s.mem.read a = none ∧ stopAt op s a = f := by
  rcases checkedFeed_outcome op addrs s with ⟨t, ht, -⟩ | ⟨before, a, after, haddrs, hb, ha, hfault⟩
  · simp [ht] at h
  · cases hfault.symm.trans h
    exact ⟨before, a, after, haddrs, hb, ha, rfl⟩

/-- A feed over an unreadable byte stops. -/
theorem exists_checkedFeed_eq_stopAt (h : ∃ a ∈ addrs, s.mem.read a = none) :
    ∃ a, checkMode op s (feedRange addrs s) = .fault (stopAt op s a) := by
  obtain ⟨a, ha, hnone⟩ := h
  rcases checkedFeed_outcome op addrs s with ⟨t, ht, -⟩ | ⟨_, b, _, -, -, -, hfault⟩
  · have hread := isSome_read_of_checkedFeed ht ha
    simp [hnone] at hread
  · exact ⟨b, hfault⟩

/-- A fault that feeds stop with in one mode alone comes of an unreadable byte in that mode
(`60_exceptions.md` R101, R105). -/
theorem exists_checkedFeed_eq_fault_iff {fault : Nat → Fault} {mode : Mode}
    (hfault : ∀ a b, stopAt op s a = fault b ↔ s.mode = mode ∧ a = b) :
    (∃ a, checkMode op s (feedRange addrs s) = .fault (fault a)) ↔
      s.mode = mode ∧ ∃ a ∈ addrs, s.mem.read a = none := by
  constructor
  · rintro ⟨a, h⟩
    obtain ⟨_, b, _, rfl, -, hnone, hstop⟩ := checkedFeed_stop h
    exact ⟨((hfault b a).1 hstop).1, b, by simp, hnone⟩
  · rintro ⟨hs, hnone⟩
    obtain ⟨a, h⟩ := exists_checkedFeed_eq_stopAt (op := op) hnone
    exact ⟨a, by rw [h, (hfault a a).2 ⟨hs, rfl⟩]⟩

theorem exists_checkedFeed_eq_boundsViolation_iff :
    (∃ a, checkMode op s (feedRange addrs s) = .fault (.boundsViolation a)) ↔
      s.mode = .active ∧ ∃ a ∈ addrs, s.mem.read a = none :=
  exists_checkedFeed_eq_fault_iff fun _ _ => stopAt_eq_boundsViolation_iff

theorem exists_checkedFeed_eq_boundsViolationBeforeInit_iff :
    (∃ a, checkMode op s (feedRange addrs s) = .fault (.boundsViolationBeforeInit op a)) ↔
      s.mode = .uninitialized ∧ ∃ a ∈ addrs, s.mem.read a = none :=
  exists_checkedFeed_eq_fault_iff fun _ _ => stopAt_eq_boundsViolationBeforeInit_iff

/-- The address in either fault of a feed is the first unreadable one in feeding order (`60_exceptions.md` R105). -/
theorem checkedFeed_first_unreadable {a : Nat}
    (h : checkMode op s (feedRange addrs s) = .fault (.boundsViolation a) ∨
      checkMode op s (feedRange addrs s) = .fault (.boundsViolationBeforeInit op a)) :
    ∃ before after, addrs = before ++ a :: after ∧ (∀ b ∈ before, (s.mem.read b).isSome = true) ∧
      s.mem.read a = none := by
  rcases h with h | h <;> obtain ⟨before, b, after, haddrs, hb, hnone, hstop⟩ := checkedFeed_stop h
  · obtain ⟨-, rfl⟩ := stopAt_eq_boundsViolation_iff.1 hstop
    exact ⟨before, after, haddrs, hb, hnone⟩
  · obtain ⟨-, rfl⟩ := stopAt_eq_boundsViolationBeforeInit_iff.1 hstop
    exact ⟨before, after, haddrs, hb, hnone⟩

end

/-! ### The addresses of a range by their index -/

theorem forall_mem_ascending {base : Word} {len : Byte} {P : Nat → Prop} :
    (∀ a ∈ ascending base len, P a) ↔ ∀ i, i < len.toNat → P (base.toNat + i) := by
  simp [ascending, effectiveAddress]

theorem forall_mem_descending {base : Word} {len : Byte} {P : Nat → Prop} :
    (∀ a ∈ descending base len, P a) ↔ ∀ i, i < len.toNat → P (base.toNat + i) := by
  simp [descending, forall_mem_ascending, -mem_ascending]

theorem exists_mem_ascending {base : Word} {len : Byte} {P : Nat → Prop} :
    (∃ a ∈ ascending base len, P a) ↔ ∃ i, i < len.toNat ∧ P (base.toNat + i) := by
  simp [ascending, effectiveAddress]

theorem exists_mem_descending {base : Word} {len : Byte} {P : Nat → Prop} :
    (∃ a ∈ descending base len, P a) ↔ ∃ i, i < len.toNat ∧ P (base.toNat + i) := by
  simp [descending, exists_mem_ascending, -mem_ascending]

theorem rangeReadable_iff {m : Memory} {base : Word} {len : Byte} :
    rangeReadable m base len = true ↔ ∀ i, i < len.toNat → (m.read (base.toNat + i)).isSome = true := by
  simp [rangeReadable, readableAt, effectiveAddress]

theorem pairwise_gt_descending (base : Word) (len : Byte) : (descending base len).Pairwise (· > ·) :=
  List.pairwise_reverse.2 (pairwise_lt_ascending base len)

/-- In an ordered list an element that `a` does not precede stands before it. -/
theorem mem_before_of_pairwise {r : Nat → Nat → Prop} {before after : List Nat} {a x : Nat}
    (h : (before ++ a :: after).Pairwise r) (hx : x ∈ before ++ a :: after) (hne : x ≠ a) (hax : ¬ r a x) :
    x ∈ before := by
  obtain ⟨-, htail, -⟩ := List.pairwise_append.1 h
  obtain ⟨hafter, -⟩ := List.pairwise_cons.1 htail
  rcases List.mem_append.1 hx with hbefore | hx
  · exact hbefore
  · rcases List.mem_cons.1 hx with heq | hmem
    · exact absurd heq hne
    · exact absurd (hafter x hmem) hax

/-! ### Clean operations -/

theorem usesRecorded_eq_nil_iff (op : Operation) (s : State) : usesRecorded op s = [] ↔ s.mode = .active := by
  cases h : s.mode with
  | active => simp [usesRecorded_active op h]
  | uninitialized => simp [usesRecorded_uninitialized op h]

theorem isClean_iff (s : State) (o : Host.Outcome State Fault Refusal) :
    isClean s o = true ↔ ∃ t, o = .next t ∧ t.faults = s.faults := by
  cases o <;> simp [isClean]

/-- An operation other than INIT that records no fault was issued in Active mode. -/
theorem active_of_exec_faults_eq {i : Instr} {s t : State} (hi : ∀ seed poly, i ≠ .init seed poly)
    (h : exec i s = .next t) (hfaults : t.faults = s.faults) : s.mode = .active := by
  rw [exec_faults_of_ne_init hi h, List.append_right_eq_self] at hfaults
  exact (usesRecorded_eq_nil_iff _ s).1 hfaults

theorem dutiesMet_of_exec_faults_eq {i : Instr} {s t : State} (h : exec i s = .next t)
    (hfaults : t.faults = s.faults) : dutiesMet s i = true := by
  cases i with
  | init seed poly => rfl
  | feedbit b => exact decide_eq_true (active_of_exec_faults_eq (by simp) h hfaults)
  | feedfwd base len =>
    have hs := active_of_exec_faults_eq (by simp) h hfaults
    have hreads : rangeReadable s.mem base len = true :=
      rangeReadable_iff.2 (forall_mem_ascending.1 (exists_checkedFeed_eq_next_iff.1 ⟨t, h⟩))
    simp [dutiesMet, hs, hreads]
  | feedrev base len =>
    have hs := active_of_exec_faults_eq (by simp) h hfaults
    have hreads : rangeReadable s.mem base len = true :=
      rangeReadable_iff.2 (forall_mem_descending.1 (exists_checkedFeed_eq_next_iff.1 ⟨t, h⟩))
    simp [dutiesMet, hs, hreads]
  | getresult => exact decide_eq_true (active_of_exec_faults_eq (by simp) h hfaults)

/-! ### An operation before INIT -/

theorem feedRange_setMode (addrs : List Nat) (s : State) (m : Mode) :
    feedRange addrs (s.setMode m) = mapNext (fun t => t.setMode m) (feedRange addrs s) := by
  simp only [feedRange, State.setMode_mem, State.setMode_polynomial, State.setMode_register]
  cases feedBytes s.mem s.polynomial addrs s.register <;> rfl

/-- The mode check before INIT, for an operation that hands the mode on. -/
theorem checkMode_eq_raiseUninitializedUse {s : State} (hs : s.mode = .uninitialized) (op : Operation)
    {o : State → Host.Outcome State Fault Refusal}
    (ho : ∀ t m, o (t.setMode m) = mapNext (fun u => u.setMode m) (o t)) :
    checkMode op s (o s) =
      raiseUninitializedUse op (mapNext (fun u => u.setMode .uninitialized) (o (s.setMode .active))) := by
  have hself : (s.setMode .active).setMode .uninitialized = s := by simp [State.setMode, ← hs]
  rw [← ho, hself, checkMode_uninitialized op _ hs]

/-- Before INIT an operation is the one in Active mode on the held values, put back into Uninitialized mode, with
`UninitializedUse` raised (`60_exceptions.md` R103). -/
theorem exec_eq_raiseUninitializedUse {i : Instr} {s : State} (hs : s.mode = .uninitialized)
    (hi : ∀ seed poly, i ≠ .init seed poly) :
    exec i s = raiseUninitializedUse (operationOf i)
      (mapNext (fun t => t.setMode .uninitialized) (exec i (s.setMode .active))) := by
  cases i with
  | init seed poly => exact absurd rfl (hi seed poly)
  | feedbit b =>
    exact checkMode_eq_raiseUninitializedUse hs .feedbit
      (o := fun t => .next (t.setRegister (stepBit t.register t.polynomial b))) fun _ _ => rfl
  | feedfwd base len => exact checkMode_eq_raiseUninitializedUse hs .feedfwd (feedRange_setMode _)
  | feedrev base len => exact checkMode_eq_raiseUninitializedUse hs .feedrev (feedRange_setMode _)
  | getresult =>
    exact checkMode_eq_raiseUninitializedUse hs .getresult (o := fun t => .next (t.respond t.register)) fun _ _ => rfl

/-! ### The record of faults -/

theorem exec_faults_prefix {i : Instr} {s t : State} (h : exec i s = .next t) : s.faults <+: t.faults := by
  rcases exec_next_cases h with ⟨seed, poly, -, rfl⟩ | ⟨r, op, rfl, -⟩ | ⟨-, rfl⟩
  · exact List.prefix_rfl
  · exact List.prefix_append _ _
  · exact List.prefix_append _ _

theorem perform_faults_prefix {act : HostAction} {s t : State} (h : perform act s = .next t) :
    s.faults <+: t.faults := by
  rcases perform_next_cases h with ⟨w, i, -, -, hexec⟩ | ⟨addr, d, -, rfl⟩ | ⟨addr, -, rfl⟩ | ⟨addr, -, rfl⟩ |
    ⟨-, rfl⟩
  · exact exec_faults_prefix hexec
  all_goals exact List.prefix_rfl

/-- No step takes a recorded fault back (`60_exceptions.md` R110). -/
theorem step_faults_prefix {s t : State} (h : step s = .next t) : s.faults <+: t.faults := by
  rcases step_next_cases h with ⟨-, rfl⟩ | ⟨act, rest, -, hperform⟩
  · exact List.prefix_rfl
  · exact perform_faults_prefix (s := s.setInputs rest) hperform

/-! ### Runs that go on past a stop -/

theorem execOn_of_fault {i : Instr} {s : State} {f : Fault} (h : exec i s = .fault f) :
    execOn i s = .next (goOn s f) := by
  simp [execOn, h]

theorem stepOn_of_nil {s : State} (h : s.inputs = []) : stepOn s = .next s := by
  simp [stepOn, fetch, h, idleStep]

theorem stepOn_of_cons {s : State} {act : HostAction} {rest : List HostAction} (h : s.inputs = act :: rest) :
    stepOn s = performOn act (s.setInputs rest) := by
  simp [stepOn, fetch, h]

theorem stepOn_of_next {s t : State} (h : step s = .next t) : stepOn s = .next t := by
  rcases step_next_cases h with ⟨hnil, rfl⟩ | ⟨act, rest, hcons, hperform⟩
  · exact stepOn_of_nil hnil
  · simp [stepOn_of_cons hcons, performOn, hperform]

/-- Where the machine stops, the extension goes on from the state with the command taken off
(`60_exceptions.md` R110). -/
theorem stepOn_of_fault {s : State} {f : Fault} (h : step s = .fault f) :
    ∃ rest, stepOn s = .next (goOn (s.setInputs rest) f) := by
  cases hi : s.inputs with
  | nil => simp [step_of_nil hi] at h
  | cons act rest =>
    rw [step_of_cons hi] at h
    exact ⟨rest, by simp [stepOn_of_cons hi, performOn, h]⟩

theorem stepOn_of_refused {s : State} {r : Refusal} (h : step s = .refused r) : stepOn s = .refused r := by
  cases hi : s.inputs with
  | nil => simp [step_of_nil hi] at h
  | cons act rest =>
    rw [step_of_cons hi] at h
    simp [stepOn_of_cons hi, performOn, h]

theorem goOn_faults (s : State) (f : Fault) : (goOn s f).faults = s.faults ++ [reported f] := rfl

theorem stepOn_faults_prefix {s t : State} (h : stepOn s = .next t) : s.faults <+: t.faults := by
  cases hstep : step s with
  | next u =>
    cases (stepOn_of_next hstep).symm.trans h
    exact step_faults_prefix hstep
  | fault f =>
    obtain ⟨rest, hgo⟩ := stepOn_of_fault hstep
    cases hgo.symm.trans h
    exact List.prefix_append _ _
  | refused r => simp [stepOn_of_refused hstep] at h

/-! ### The statements -/

/-- Settles O21: the three other operations by their equations, and both feeds by the bytes at their addresses. -/
theorem outcomesByOperation : Obligations.OutcomesByOperation := by
  intro s
  refine ⟨fun seed poly => ⟨_, exec_init seed poly s, rfl⟩, fun b => ⟨_, exec_feedbit b s, rfl⟩,
    ⟨_, exec_getresult s, rfl⟩, fun op => ?_, fun base len => ⟨?_, ?_, fun t => checkedFeed_faults,
    fun t => checkedFeed_faults, ?_, ?_, ?_, ?_⟩⟩
  · cases h : s.mode with
    | active => simp [usesRecorded_active op h]
    | uninitialized => simp [usesRecorded_uninitialized op h]
  · exact exists_checkedFeed_eq_next_iff.trans forall_mem_ascending
  · exact exists_checkedFeed_eq_next_iff.trans forall_mem_descending
  · exact exists_checkedFeed_eq_boundsViolation_iff.trans (and_congr_right' exists_mem_ascending)
  · exact exists_checkedFeed_eq_boundsViolation_iff.trans (and_congr_right' exists_mem_descending)
  · exact exists_checkedFeed_eq_boundsViolationBeforeInit_iff.trans (and_congr_right' exists_mem_ascending)
  · exact exists_checkedFeed_eq_boundsViolationBeforeInit_iff.trans (and_congr_right' exists_mem_descending)

/-- Settles O22: a completed operation that records nothing ran in Active mode over readable bytes, and the duties met
give such a one. -/
theorem cleanIffDutiesMet : Obligations.CleanIffDutiesMet := by
  refine fun i s => ⟨?_, exec_ne_refused i s⟩
  rw [Bool.eq_iff_iff, isClean_iff]
  refine ⟨fun ⟨t, h, hfaults⟩ => dutiesMet_of_exec_faults_eq h hfaults, fun h => ?_⟩
  refine ⟨_, everyOperationCompletes i s h, ?_⟩
  cases i <;> rfl

/-- Settles O23: a reserved word is refused by the decoder, the mode names a feed's stop, and the addresses of a range
stand in feeding order. -/
theorem outcomePriority : Obligations.OutcomePriority := by
  refine ⟨fun w s hop => runCommand_of_reserved (decode_of_reserved hop) s, fun base len s hs hnone => ⟨?_, ?_⟩,
    fun base len a s h => ?_, fun base len a s h => ?_⟩
  · obtain ⟨a, h⟩ := exists_checkedFeed_eq_boundsViolationBeforeInit_iff.2 ⟨hs, exists_mem_ascending.2 hnone⟩
    exact ⟨_, h, rfl⟩
  · obtain ⟨a, h⟩ := exists_checkedFeed_eq_boundsViolationBeforeInit_iff.2 ⟨hs, exists_mem_descending.2 hnone⟩
    exact ⟨_, h, rfl⟩
  · obtain ⟨before, after, haddrs, hbefore, hnone⟩ := checkedFeed_first_unreadable h
    obtain ⟨i, hi, rfl⟩ := mem_ascending.1 (show a ∈ ascending base len by simp [haddrs, -mem_ascending])
    refine ⟨i, hi, rfl, hnone, fun j hj => hbefore _ ?_⟩
    have hsorted := pairwise_lt_ascending base len
    have hmem : base.toNat + j ∈ ascending base len := mem_ascending.2 ⟨j, by omega, rfl⟩
    rw [haddrs] at hsorted hmem
    exact mem_before_of_pairwise hsorted hmem (by omega) (by omega)
  · obtain ⟨before, after, haddrs, hbefore, hnone⟩ := checkedFeed_first_unreadable h
    obtain ⟨i, hi, rfl⟩ := mem_descending.1 (show a ∈ descending base len by simp [haddrs, -mem_descending])
    refine ⟨i, hi, rfl, hnone, fun j hij hj => hbefore _ ?_⟩
    have hsorted := pairwise_gt_descending base len
    have hmem : base.toNat + j ∈ descending base len := mem_descending.2 ⟨j, hj, rfl⟩
    rw [haddrs] at hsorted hmem
    exact mem_before_of_pairwise hsorted hmem (by omega) (by omega)

/-- Settles O48: `exec_eq_raiseUninitializedUse` on each outcome of the operation in Active mode. -/
theorem useBeforeInitIsCarriedOut : Obligations.UseBeforeInitIsCarriedOut := by
  intro i s hs hi
  have hraise := exec_eq_raiseUninitializedUse hs hi
  refine ⟨fun t h => ?_, fun a h => ?_⟩
  · have hactive : exec i (s.setMode .active) = .next t := h
    rw [hraise, hactive]
    rfl
  · have hactive : exec i (s.setMode .active) = .fault (.boundsViolation a) := h
    rw [hraise, hactive]
    rfl

/-- Settles O50: every step's record begins with the one before it, in the extension through the machine's step. -/
theorem recordedFaultsStay : Obligations.RecordedFaultsStay :=
  ⟨fun seed poly s => ⟨_, exec_init seed poly s, rfl, rfl, rfl, rfl⟩,
    fun _ _ h => (step_faults_prefix h).imp fun _ hnew => hnew.symm,
    fun _ _ h => (stepOn_faults_prefix h).imp fun _ hnew => hnew.symm⟩

/-- Settles O51, outcome by outcome of the machine's step. -/
theorem extensionAgreesWithMachine : Obligations.ExtensionAgreesWithMachine := by
  refine fun s => ⟨fun t => stepOn_of_next, fun f h => ?_, fun r => stepOn_of_refused⟩
  obtain ⟨rest, hgo⟩ := stepOn_of_fault h
  exact ⟨_, hgo, goOn_faults _ f⟩

/-- Settles O49: `goOn` writes `register` and adds to the record. -/
theorem boundsViolationLeavesRestInExtension : Obligations.BoundsViolationLeavesRestInExtension :=
  fun _ s f h => ⟨goOn s f, execOn_of_fault h, rfl⟩

end Sys2Proof.Machine
end

section
/-! SUPPORT. The reset event (`70_reset_and_hazards.md`): the statement of the family about a step on a pending reset. -/

namespace Sys2Proof.Machine

/-- A reset is carried out from every state (`70_reset_and_hazards.md` R115, R116). -/
theorem perform_reset (s : State) : perform .reset s = .next s.resetBlock := rfl

theorem step_of_reset {s : State} {rest : List HostAction} (h : s.inputs = .reset :: rest) :
    step s = .next (s.setInputs rest).resetBlock :=
  (step_of_cons h).trans (perform_reset (s.setInputs rest))

/-- Settles O41: the step resets the block of the state with the reset taken off the pending actions, and `resetBlock`
writes only the two registers, the mode and the count of resets. -/
theorem resetEvent : Obligations.ResetEvent :=
  fun _ _ hinputs => step_of_reset hinputs

end Sys2Proof.Machine
end
